-- ==== Sys2Proof/Word.lean ====
section
/-! DEFINITION. The word types of the block (00_scope.md R7, 10_state.md R20): all values are unsigned. -/

namespace Sys2Proof

/-- An octet of the input space or a byte of the output space (00_scope.md R7). -/
abbrev Byte := BitVec 8

/-- A 32-bit register or one datum of a host register access (10_state.md R20, R32). -/
abbrev Word := BitVec 32

/-- An input address, `IN_ADDR_WIDTH` = 32 bits (00_scope.md R6). -/
abbrev InAddr := BitVec 32

/-- An output address, `OUT_ADDR_WIDTH` = 34 bits (00_scope.md R6). -/
abbrev OutAddr := BitVec 34

end Sys2Proof
end

