-- ==== Sys2Proof/Config.lean ====
section
/-! DEFINITION. What a platform fixes and what the spec leaves open: the OPEN parameters of 00_scope.md R6 as a
record of plain numbers, and the free values, which have no body. The parameters to which the spec gives a value
are in Machine/Params.lean. -/

namespace Sys2Proof

/-- The OPEN parameters of 00_scope.md R6 (20_memory.md R54, R58; 92_eei_decisions.md D11, D17). A State holds one
such record and no step changes it, so that a statement about every state is a statement about every platform. -/
structure Platform where
  /-- `REG_BASE`: where the platform places the register window. -/
  regBase : Nat
  /-- `IN_BASE`: where the platform places the input buffer. -/
  inBase  : Nat
  /-- `OUT_BASE`: where the platform places the output buffer. -/
  outBase : Nat
  /-- `OUT_CAP`: how many bytes of output memory the platform backs. -/
  outCap  : Nat
  deriving DecidableEq, Repr

/-- Free value: what an input address holds that nobody has written ("the contents of the input space are the
host's", 70_reset_and_hazards.md R202). Log entry 4. -/
opaque Config.inputInitial : Nat → Byte

/-- Free value: what an output address holds that nobody has written ("a model treats them as any value until
written", 70_reset_and_hazards.md R202, 93_implementation_defined.md U9). Log entry 4. -/
opaque Config.outputInitial : Nat → Byte

/-- Free value: the draws of 20_memory.md R61 item 3, one for each value of the counter `State.draws`
(93_implementation_defined.md U4, U5). Log entry 7. -/
opaque Config.freeByte : Nat → Byte

end Sys2Proof
end

