-- ==== Sys2Proof/Syntax.lean ====
section
/-! DEFINITION. The names of the block: its phases, its error kinds, one constructor for each row of
spec/opcode_table.json, and what can happen to the block from outside (the host's actions and the reset signal). -/

namespace Sys2Proof

/-- The FSM state PHASE (10_state.md R21), one name for each of the eight values of the 3-bit register. -/
inductive Phase where
  | idle | type | fix | width | height | rows | done | error
  deriving DecidableEq, Repr

/-- The six error kinds (60_exceptions.md R180). Code 0 (NONE) is no kind, and code 7 is reserved. -/
inductive ErrKind where
  | outOfBounds | integerOverflow | unsupportedImageType | unsupportedExtendedHeader
  | invalidDimensions | truncatedBitmap
  deriving DecidableEq, Repr

/-- One constructor for each row of spec/opcode_table.json (30_encoding.md R80, R85). The STEP rows carry the bits
of the octet that the row's match leaves free; the HOST rows carry the offset bits and data bits that are left free. -/
inductive Instr where
  /-- TYPE_CONT, 41_header.md R122. -/
  | typeCont (g : BitVec 7)
  /-- TYPE_LAST, 41_header.md R123. -/
  | typeLast (g : BitVec 7)
  /-- FIX_ZERO, 41_header.md R125. -/
  | fixZero
  /-- FIX_NONZERO_B7, 41_header.md R126: the octet's highest set bit is bit 7 (`low` are the bits below it). -/
  | fixNonzeroB7 (low : BitVec 7)
  /-- FIX_NONZERO_B6, 41_header.md R126. -/
  | fixNonzeroB6 (low : BitVec 6)
  /-- FIX_NONZERO_B5, 41_header.md R126. -/
  | fixNonzeroB5 (low : BitVec 5)
  /-- FIX_NONZERO_B4, 41_header.md R126. -/
  | fixNonzeroB4 (low : BitVec 4)
  /-- FIX_NONZERO_B3, 41_header.md R126. -/
  | fixNonzeroB3 (low : BitVec 3)
  /-- FIX_NONZERO_B2, 41_header.md R126. -/
  | fixNonzeroB2 (low : BitVec 2)
  /-- FIX_NONZERO_B1, 41_header.md R126. -/
  | fixNonzeroB1 (low : BitVec 1)
  /-- FIX_NONZERO_B0, 41_header.md R126: the octet is 0x01. -/
  | fixNonzeroB0
  /-- WIDTH_CONT, 41_header.md R129. -/
  | widthCont (g : BitVec 7)
  /-- WIDTH_LAST, 41_header.md R130. -/
  | widthLast (g : BitVec 7)
  /-- HEIGHT_CONT, 41_header.md R132. -/
  | heightCont (g : BitVec 7)
  /-- HEIGHT_LAST, 41_header.md R133. -/
  | heightLast (g : BitVec 7)
  /-- ROW_BYTE, 42_unpack.md R141: `p` is the whole octet. -/
  | rowByte (p : Byte)
  /-- READ_REG, 43_host.md R161: `off` is the register offset; the data bits of a read are ignored. -/
  | readReg (off : BitVec 6) (data : Word)
  /-- START, 43_host.md R163: `ign` are the ignored bits 31:1 of the data. -/
  | start (ign : BitVec 31)
  /-- CTRL_WRITE_ZERO, 43_host.md R162: `ign` are the ignored bits 31:1 of the data. -/
  | ctrlWriteZero (ign : BitVec 31)
  /-- WRITE_IGNORED_STATUS, 43_host.md R165. -/
  | writeIgnoredStatus (data : Word)
  /-- WRITE_IGNORED_ERRCODE, 43_host.md R165. -/
  | writeIgnoredErrcode (data : Word)
  /-- WRITE_IN_LEN, 43_host.md R166. -/
  | writeInLen (data : Word)
  /-- WRITE_IGNORED_RO, 43_host.md R165: offsets 0x10, 0x14, 0x18, 0x1C. -/
  | writeIgnoredRo (off : BitVec 6) (data : Word)
  /-- WRITE_IGNORED_RSVD, 43_host.md R165: offsets 0x20 to 0x3C. -/
  | writeIgnoredRsvd (off : BitVec 6) (data : Word)
  deriving DecidableEq, Repr

/-- What moves next, as plain data (log entry 3): a turn of the block, one access of the host (43_host.md R160,
20_memory.md R50), or the reset signal (70_reset_and_hazards.md R200). -/
inductive HostEvent where
  /-- The block takes its next step, if it has one. -/
  | block
  /-- A host access to the register window: `bytes` bytes wide, at byte offset `offset`; `data` is the write data. -/
  | register (write : Bool) (offset bytes : Nat) (data : Word)
  /-- The reset input is asserted. -/
  | reset
  /-- The host writes an octet of the input space. -/
  | writeInput (a : InAddr) (b : Byte)
  /-- The host reads an octet of the input space. -/
  | readInput (a : InAddr)
  /-- The host writes a byte of the output space. -/
  | writeOutput (a : OutAddr) (b : Byte)
  /-- The host reads a byte of the output space. -/
  | readOutput (a : OutAddr)
  deriving DecidableEq, Repr

end Sys2Proof
end

