-- ==== Sys2Proof/WellFormed.lean ====
section
/-! DEFINITION. Which instructions a word of the tables stands for: the offset conditions of the HOST rows
(30_encoding.md R85, spec/opcode_table.json). A STEP row's operand is any value of its width. -/

namespace Sys2Proof

/-- An offset of the register window is a multiple of 4 (43_host.md R160; the width keeps it at most 0x3F). -/
def offsetAligned (off : BitVec 6) : Bool := off &&& 0x03#6 == 0#6

/-- The four read-only word offsets 0x10 to 0x1C: row WRITE_IGNORED_RO, (OFF & 0x33) = 0x10. -/
def offsetReadOnly (off : BitVec 6) : Bool := off &&& 0x33#6 == 0x10#6

/-- The reserved word offsets 0x20 to 0x3C: row WRITE_IGNORED_RSVD, (OFF & 0x23) = 0x20. -/
def offsetReserved (off : BitVec 6) : Bool := off &&& 0x23#6 == 0x20#6

/-- Well-formed instructions: those that some table word encodes. -/
def Instr.wf : Instr → Bool
  | .typeCont _ => true
  | .typeLast _ => true
  | .fixZero => true
  | .fixNonzeroB7 _ => true
  | .fixNonzeroB6 _ => true
  | .fixNonzeroB5 _ => true
  | .fixNonzeroB4 _ => true
  | .fixNonzeroB3 _ => true
  | .fixNonzeroB2 _ => true
  | .fixNonzeroB1 _ => true
  | .fixNonzeroB0 => true
  | .widthCont _ => true
  | .widthLast _ => true
  | .heightCont _ => true
  | .heightLast _ => true
  | .rowByte _ => true
  | .readReg off _ => offsetAligned off
  | .start _ => true
  | .ctrlWriteZero _ => true
  | .writeIgnoredStatus _ => true
  | .writeIgnoredErrcode _ => true
  | .writeInLen _ => true
  | .writeIgnoredRo off _ => offsetReadOnly off
  | .writeIgnoredRsvd off _ => offsetReserved off

end Sys2Proof
end

