-- ==== Sys2Proof/Decode.lean ====
section
/-! DEFINITION. The decoder (30_encoding.md R71, R80, R85), total on every word and rejecting by name, then the
encoder written from the same formats, and the opcode table's mask and match pairs as data, to which statements
hold the decoder. -/

namespace Sys2Proof

/-- The 3-bit value of PHASE (10_state.md R21). -/
def Phase.bits : Phase → BitVec 3
  | .idle => 0#3
  | .type => 1#3
  | .fix => 2#3
  | .width => 3#3
  | .height => 4#3
  | .rows => 5#3
  | .done => 6#3
  | .error => 7#3

/-- The phase a 3-bit value names (10_state.md R21). -/
def Phase.ofBits (b : BitVec 3) : Phase :=
  match b.toNat with
  | 0 => .idle
  | 1 => .type
  | 2 => .fix
  | 3 => .width
  | 4 => .height
  | 5 => .rows
  | 6 => .done
  | _ => .error

/-- The code of an error kind (60_exceptions.md R180). -/
def ErrKind.code : ErrKind → BitVec 3
  | .outOfBounds => 1#3
  | .integerOverflow => 2#3
  | .unsupportedImageType => 3#3
  | .unsupportedExtendedHeader => 4#3
  | .invalidDimensions => 5#3
  | .truncatedBitmap => 6#3

/-- A word of one of the two formats of 30_encoding.md R85. -/
inductive TableWord where
  /-- Format STEP: PHASE[2:0] ++ o[7:0]. -/
  | step (w : BitVec 11)
  /-- Format HOST: WR ++ OFF[5:0] ++ DATA[31:0]. -/
  | host (w : BitVec 39)
  deriving DecidableEq, Repr

/-- Why a word selects no row. -/
inductive DecodeRefusal where
  /-- Phases IDLE, DONE and ERROR select nothing (30_encoding.md R80). -/
  | noStepInPhase
  /-- A HOST word with OFF[1:0] ≠ 0 matches no row (30_encoding.md R85, 43_host.md R167). -/
  | misalignedOffset
  deriving DecidableEq, Repr

/-- The STEP word of a phase and an octet (30_encoding.md R85). -/
def stepWord (ph : Phase) (o : Byte) : BitVec 11 := ph.bits ++ o

/-- The HOST word of one access (30_encoding.md R85). -/
def hostWord (wr : Bool) (off : BitVec 6) (data : Word) : BitVec 39 := BitVec.ofBool wr ++ off ++ data

/-- The continuation bit C of a varint octet (30_encoding.md R71). -/
def octetC (o : Byte) : Bool := o.getLsbD 7

/-- The 7-bit group G of a varint octet (30_encoding.md R71). -/
def octetG (o : Byte) : BitVec 7 := o.extractLsb' 0 7

/-- The FIX rows, by the position of the octet's highest set bit (30_encoding.md R80). -/
def decodeFix (o : Byte) : Instr :=
  if o.getLsbD 7 then .fixNonzeroB7 (o.extractLsb' 0 7)
  else if o.getLsbD 6 then .fixNonzeroB6 (o.extractLsb' 0 6)
  else if o.getLsbD 5 then .fixNonzeroB5 (o.extractLsb' 0 5)
  else if o.getLsbD 4 then .fixNonzeroB4 (o.extractLsb' 0 4)
  else if o.getLsbD 3 then .fixNonzeroB3 (o.extractLsb' 0 3)
  else if o.getLsbD 2 then .fixNonzeroB2 (o.extractLsb' 0 2)
  else if o.getLsbD 1 then .fixNonzeroB1 (o.extractLsb' 0 1)
  else if o.getLsbD 0 then .fixNonzeroB0
  else .fixZero

/-- The decode map of 30_encoding.md R80: what octet `o` is in phase `ph`. -/
def decodeOctet (ph : Phase) (o : Byte) : Except DecodeRefusal Instr :=
  match ph with
  | .idle => .error .noStepInPhase
  | .type => .ok (if octetC o then .typeCont (octetG o) else .typeLast (octetG o))
  | .fix => .ok (decodeFix o)
  | .width => .ok (if octetC o then .widthCont (octetG o) else .widthLast (octetG o))
  | .height => .ok (if octetC o then .heightCont (octetG o) else .heightLast (octetG o))
  | .rows => .ok (.rowByte o)
  | .done => .error .noStepInPhase
  | .error => .error .noStepInPhase

/-- The rows of an aligned host write (43_host.md R162 to R166; 10_state.md R32 gives the offsets). -/
def decodeHostWrite (off : BitVec 6) (data : Word) : Instr :=
  if off = 0x00#6 then
    if data.getLsbD 0 then .start (data.extractLsb' 1 31) else .ctrlWriteZero (data.extractLsb' 1 31)
  else if off = 0x04#6 then .writeIgnoredStatus data
  else if off = 0x08#6 then .writeIgnoredErrcode data
  else if off = 0x0C#6 then .writeInLen data
  else if offsetReadOnly off then .writeIgnoredRo off data
  else .writeIgnoredRsvd off data

/-- The rows of one host access, its fields taken apart (30_encoding.md R85). -/
def decodeAccess (wr : Bool) (off : BitVec 6) (data : Word) : Except DecodeRefusal Instr :=
  if offsetAligned off then .ok (if wr then decodeHostWrite off data else .readReg off data)
  else .error .misalignedOffset

/-- The decoder: total on both formats. -/
def decode : TableWord → Except DecodeRefusal Instr
  | .step w => decodeOctet (Phase.ofBits (w.extractLsb' 8 3)) (w.extractLsb' 0 8)
  | .host w => decodeAccess (w.getLsbD 38) (w.extractLsb' 32 6) (w.extractLsb' 0 32)

/-- The encoder, from the formats and the match values of spec/opcode_table.json. -/
def encode : Instr → TableWord
  | .typeCont g => .step (0b001#3 ++ 1#1 ++ g)
  | .typeLast g => .step (0b001#3 ++ 0#1 ++ g)
  | .fixZero => .step (0b010#3 ++ 0#8)
  | .fixNonzeroB7 low => .step (0b010#3 ++ 0b1#1 ++ low)
  | .fixNonzeroB6 low => .step (0b010#3 ++ 0b01#2 ++ low)
  | .fixNonzeroB5 low => .step (0b010#3 ++ 0b001#3 ++ low)
  | .fixNonzeroB4 low => .step (0b010#3 ++ 0b0001#4 ++ low)
  | .fixNonzeroB3 low => .step (0b010#3 ++ 0b00001#5 ++ low)
  | .fixNonzeroB2 low => .step (0b010#3 ++ 0b000001#6 ++ low)
  | .fixNonzeroB1 low => .step (0b010#3 ++ 0b0000001#7 ++ low)
  | .fixNonzeroB0 => .step (0b010#3 ++ 0b00000001#8)
  | .widthCont g => .step (0b011#3 ++ 1#1 ++ g)
  | .widthLast g => .step (0b011#3 ++ 0#1 ++ g)
  | .heightCont g => .step (0b100#3 ++ 1#1 ++ g)
  | .heightLast g => .step (0b100#3 ++ 0#1 ++ g)
  | .rowByte p => .step (0b101#3 ++ p)
  | .readReg off data => .host (hostWord false off data)
  | .start ign => .host (hostWord true 0x00#6 (ign ++ 1#1))
  | .ctrlWriteZero ign => .host (hostWord true 0x00#6 (ign ++ 0#1))
  | .writeIgnoredStatus data => .host (hostWord true 0x04#6 data)
  | .writeIgnoredErrcode data => .host (hostWord true 0x08#6 data)
  | .writeInLen data => .host (hostWord true 0x0C#6 data)
  | .writeIgnoredRo off data => .host (hostWord true off data)
  | .writeIgnoredRsvd off data => .host (hostWord true off data)

/-- The table word with `nbits` bits in whole bytes and value `w`: 11 bits (two bytes) for format STEP and 39 bits
(five bytes) for format HOST; a value too large for its format is no word. -/
def TableWord.ofNat (nbits w : Nat) : Option TableWord :=
  if nbits ≤ 16 then
    if w < 2 ^ 11 then some (.step (BitVec.ofNat 11 w)) else none
  else
    if w < 2 ^ 39 then some (.host (BitVec.ofNat 39 w)) else none

/-- The instruction the decoder reads from a word numbered as spec/opcode_table.json numbers it. -/
def decodeTableWord (nbits w : Nat) : Option Instr :=
  match TableWord.ofNat nbits w with
  | some tw => (decode tw).toOption
  | none => none

/-- The row's name in spec/opcode_table.json. -/
def Instr.mnemonic : Instr → String
  | .typeCont _ => "TYPE_CONT"
  | .typeLast _ => "TYPE_LAST"
  | .fixZero => "FIX_ZERO"
  | .fixNonzeroB7 _ => "FIX_NONZERO_B7"
  | .fixNonzeroB6 _ => "FIX_NONZERO_B6"
  | .fixNonzeroB5 _ => "FIX_NONZERO_B5"
  | .fixNonzeroB4 _ => "FIX_NONZERO_B4"
  | .fixNonzeroB3 _ => "FIX_NONZERO_B3"
  | .fixNonzeroB2 _ => "FIX_NONZERO_B2"
  | .fixNonzeroB1 _ => "FIX_NONZERO_B1"
  | .fixNonzeroB0 => "FIX_NONZERO_B0"
  | .widthCont _ => "WIDTH_CONT"
  | .widthLast _ => "WIDTH_LAST"
  | .heightCont _ => "HEIGHT_CONT"
  | .heightLast _ => "HEIGHT_LAST"
  | .rowByte _ => "ROW_BYTE"
  | .readReg _ _ => "READ_REG"
  | .start _ => "START"
  | .ctrlWriteZero _ => "CTRL_WRITE_ZERO"
  | .writeIgnoredStatus _ => "WRITE_IGNORED_STATUS"
  | .writeIgnoredErrcode _ => "WRITE_IGNORED_ERRCODE"
  | .writeInLen _ => "WRITE_IN_LEN"
  | .writeIgnoredRo _ _ => "WRITE_IGNORED_RO"
  | .writeIgnoredRsvd _ _ => "WRITE_IGNORED_RSVD"

/-- One row of spec/opcode_table.json: a word is the row's when (word & mask) = value (30_encoding.md R85). -/
structure TableRow where
  mnemonic : String
  mask     : Nat
  value    : Nat
  deriving DecidableEq, Repr

/-- Whether the row's mask and match select the word `w`. -/
def TableRow.selects (r : TableRow) (w : Nat) : Bool := w &&& r.mask == r.value

/-- The STEP rows of spec/opcode_table.json, copied from it. The decoder does not read them. -/
def stepRows : List TableRow :=
  [⟨"TYPE_CONT", 0x780, 0x180⟩, ⟨"TYPE_LAST", 0x780, 0x100⟩, ⟨"FIX_ZERO", 0x7ff, 0x200⟩,
   ⟨"FIX_NONZERO_B7", 0x780, 0x280⟩, ⟨"FIX_NONZERO_B6", 0x7c0, 0x240⟩, ⟨"FIX_NONZERO_B5", 0x7e0, 0x220⟩,
   ⟨"FIX_NONZERO_B4", 0x7f0, 0x210⟩, ⟨"FIX_NONZERO_B3", 0x7f8, 0x208⟩, ⟨"FIX_NONZERO_B2", 0x7fc, 0x204⟩,
   ⟨"FIX_NONZERO_B1", 0x7fe, 0x202⟩, ⟨"FIX_NONZERO_B0", 0x7ff, 0x201⟩] ++
  [⟨"WIDTH_CONT", 0x780, 0x380⟩, ⟨"WIDTH_LAST", 0x780, 0x300⟩, ⟨"HEIGHT_CONT", 0x780, 0x480⟩,
   ⟨"HEIGHT_LAST", 0x780, 0x400⟩, ⟨"ROW_BYTE", 0x700, 0x500⟩]

/-- The HOST rows of spec/opcode_table.json, copied from it. The decoder does not read them. -/
def hostRows : List TableRow :=
  [⟨"READ_REG", 0x4300000000, 0x0⟩, ⟨"START", 0x7f00000001, 0x4000000001⟩,
   ⟨"CTRL_WRITE_ZERO", 0x7f00000001, 0x4000000000⟩, ⟨"WRITE_IGNORED_STATUS", 0x7f00000000, 0x4400000000⟩,
   ⟨"WRITE_IGNORED_ERRCODE", 0x7f00000000, 0x4800000000⟩, ⟨"WRITE_IN_LEN", 0x7f00000000, 0x4c00000000⟩,
   ⟨"WRITE_IGNORED_RO", 0x7300000000, 0x5000000000⟩, ⟨"WRITE_IGNORED_RSVD", 0x6300000000, 0x6000000000⟩]

end Sys2Proof
end

