-- ==== Sys2Proof/Machine/State.lean ====
section
/-! DEFINITION. The machine's state as plain data: the eleven registers of 10_state.md R20, the two memories of
20_memory.md R50, the platform's parameters, and five fields of the model's own (agenda, rdata, sync, unseen,
draws). -/

namespace Sys2Proof.Machine

/-- A memory: (address, byte) pairs, addresses strictly rising. An address that is not listed holds no value that
anyone has written (log entry 4). -/
abbrev Memory := List Host.Cell

/-- How the last decode stands for the host, by its reads of STATUS (20_memory.md R61, R63; 70_reset_and_hazards.md
R205). The model's own bookkeeping, log entry 6. -/
inductive HostSync where
  /-- None has been started, or STATUS has been read with DONE = 1. -/
  | owner
  /-- A decode was started and STATUS has not been read with BUSY = 0 since. -/
  | pending
  /-- It ended in ERROR and STATUS has been read with ERR = 1: the output bytes are no result. -/
  | failed
  /-- Reset came while it was `pending` and had not ended in ERROR. -/
  | abandoned
  /-- It ended in ERROR, and reset came before STATUS was read with ERR = 1. -/
  | failedUnread
  deriving DecidableEq, Repr

/-- The machine's state. -/
structure State where
  /-- PHASE (10_state.md R21). -/
  phase    : Phase
  /-- POS, the cursor (10_state.md R22). -/
  pos      : Word
  /-- ACC, the varint accumulator (10_state.md R24). -/
  acc      : Word
  /-- IMG_TYPE (10_state.md R25). -/
  imgType  : Word
  /-- WIDTH (10_state.md R25). -/
  width    : Word
  /-- HEIGHT (10_state.md R25). -/
  height   : Word
  /-- Y, the current row (10_state.md R26). -/
  y        : BitVec 16
  /-- XB, the column of the next packed octet's first pixel (10_state.md R27). -/
  xb       : BitVec 16
  /-- WPTR, the output write position (10_state.md R28). -/
  wptr     : OutAddr
  /-- ERRCODE (10_state.md R29). -/
  errcode  : BitVec 3
  /-- IN_LEN (10_state.md R31). -/
  inLen    : Word
  /-- The input space (20_memory.md R51). -/
  input    : Memory
  /-- The output space (20_memory.md R53). -/
  output   : Memory
  /-- The OPEN parameters (00_scope.md R6); no step changes them. -/
  platform : Platform
  /-- The model's own: what moves next; when it is empty the block moves (log entry 3). -/
  agenda   : List HostEvent
  /-- The model's own: the value the host's last read returned (log entry 5). -/
  rdata    : Word
  /-- The model's own: how the last decode stands for the host (log entry 6). -/
  sync     : HostSync
  /-- The model's own: every output byte that a decode before the last START or reset wrote, and that no STATUS read has
  ordered before the host's accesses, lies below it (log entry 18). -/
  unseen   : Nat
  /-- The model's own: how many free values have been drawn (log entry 7). -/
  draws    : Nat
  deriving DecidableEq, Repr

/-- Why the machine stops with a fault. Every one is safe: the machine stops where the spec gives no next state. -/
inductive Fault where
  /-- ERRCODE holds 7: raised by the step itself (93_implementation_defined.md U12, "a model that reaches it has a
  bug: `fault`"). Safe; no run reaches it. -/
  | reservedErrorCode
  /-- The host reads or writes an output address that no memory backs: raised by the host's output accesses
  (20_memory.md R50: addresses 0 .. OUT_CAP − 1). Safe. -/
  | outputAddressUnbacked
  deriving DecidableEq, Repr

/-- Why the machine refuses to go on. Every one is safe: the spec says that a model refuses such a run. -/
inductive Refusal where
  /-- An instruction whose arm is still rejected by name. No arm is. -/
  | notModelled (mnemonic : String)
  /-- A host access that is not an aligned 32-bit access inside the register window (43_host.md R167, U8): raised by
  the host's register accesses and by READ_REG at a misaligned offset. Safe. -/
  | badRegisterAccess
  /-- The host writes the input space between START and a STATUS read with BUSY = 0 (20_memory.md R62,
  70_reset_and_hazards.md R205, U7): raised by the host's input writes. Safe. -/
  | inputWriteDuringDecode
  /-- The host writes the output space while BUSY (70_reset_and_hazards.md R206, U7): raised by the host's output
  writes. Safe. -/
  | outputWriteWhileBusy
  /-- The platform places two of the three spaces so that they overlap (20_memory.md R50, R65, U6): raised by the
  step itself. Safe. -/
  | overlappingSpaces
  deriving DecidableEq, Repr

/-- The platform of `State.reset` (log entry 2): an output space that holds every image, and three disjoint places. -/
def Platform.atReset : Platform :=
  { regBase := 0x500000000, inBase := 0x400000000, outBase := 0, outCap := 0x400000000 }

/-- The machine right after reset (10_state.md R20, 70_reset_and_hazards.md R200, R201), nothing placed in memory. -/
def State.reset : State :=
  { phase := .idle, pos := 0, acc := 0, imgType := 0, width := 0, height := 0, y := 0, xb := 0, wptr := 0
    errcode := 0, inLen := 0, input := [], output := [], platform := Platform.atReset, agenda := [], rdata := 0
    sync := .owner, unseen := 0, draws := 0 }

end Sys2Proof.Machine
end

