-- ==== Sys2Proof/Machine/Params.lean ====
section
/-! DEFINITION. The implementation parameters to which the spec gives a value (00_scope.md R6). -/

namespace Sys2Proof.Machine

/-- `ACC_GUARD_MASK` (40_bytecursor.md R102, 90_conflicts.md C1, 92_eei_decisions.md D5; log entry 1). -/
def accGuardMask : Word := 0xFF000000#32

/-- `BITMAP_EOF_CODE` (42_unpack.md R145, 90_conflicts.md C4, 92_eei_decisions.md D7; log entry 1). -/
def bitmapEofCode : ErrKind := .truncatedBitmap

/-- `SUPPORTED_TYPE` (41_header.md R124). -/
def supportedType : Word := 0#32

/-- `MIN_DIM` (41_header.md R134). -/
def minDim : Word := 1#32

/-- `MAX_DIM` (41_header.md R134). -/
def maxDim : Word := 65535#32

/-- `REG_WINDOW`, in bytes (10_state.md R32). -/
def regWindow : Nat := 64

/-- The size of the register accesses the window admits, in bytes (43_host.md R160, R167). -/
def regAccessBytes : Nat := 4

end Sys2Proof.Machine
end

