-- ==== Sys2Proof/Machine/Flags.lean ====
section
/-! DEFINITION. The three status flags, pure functions of PHASE (10_state.md R30), and the STATUS word
(10_state.md R32, 43_host.md R161). The block has no other flag. -/

namespace Sys2Proof.Machine

/-- BUSY = (1 ≤ PHASE ≤ 5). -/
def phaseBusy : Phase → Bool
  | .idle => false
  | .type => true
  | .fix => true
  | .width => true
  | .height => true
  | .rows => true
  | .done => false
  | .error => false

/-- BUSY of a state. -/
def State.busy (s : State) : Bool := phaseBusy s.phase

/-- DONE = (PHASE = 6). -/
def State.done (s : State) : Bool := s.phase == .done

/-- ERR = (PHASE = 7). -/
def State.err (s : State) : Bool := s.phase == .error

/-- One flag as a 32-bit number. -/
def flagWord (b : Bool) : Word := (BitVec.ofBool b).setWidth 32

/-- The STATUS word: zext_32(PHASE) << 4 | ERR << 2 | DONE << 1 | BUSY. -/
def statusWord (s : State) : Word :=
  (s.phase.bits.setWidth 32 <<< 4) ||| (flagWord s.err <<< 2) ||| (flagWord s.done <<< 1) ||| flagWord s.busy

end Sys2Proof.Machine
end

