-- ==== Sys2Proof/Machine/Operands.lean ====
section
/-! DEFINITION. The operand forms: the varint group entering the accumulator (40_bytecursor.md R101), the eight
lanes of a packed octet (42_unpack.md R141, R146), the RGBA bytes of a pixel (R142), and the words of the register
window (10_state.md R32, 43_host.md R161). -/

namespace Sys2Proof.Machine

/-- acc2 = ((ACC << 7) | zext_32(G)) mod 2^32 (40_bytecursor.md R101). -/
def accumulate (acc : Word) (g : BitVec 7) : Word := (acc <<< 7) ||| g.setWidth 32

/-- The overflow guard fires: (ACC & ACC_GUARD_MASK) ≠ 0 (40_bytecursor.md R102). -/
def guardFires (acc : Word) : Bool := acc &&& accGuardMask != 0#32

/-- The bit positions of a packed octet, leftmost pixel first (42_unpack.md R141: j in 0 .. 7). -/
def lanes : List Nat := [0, 1, 2, 3, 4, 5, 6, 7]

/-- col = zext_17(XB) + j (42_unpack.md R141). -/
def laneColumn (xb : BitVec 16) (j : Nat) : BitVec 17 := xb.setWidth 17 + BitVec.ofNat 17 j

/-- Lane j is active when its column is < WIDTH (42_unpack.md R141, R146). -/
def laneActive (width : Word) (xb : BitVec 16) (j : Nat) : Bool := (laneColumn xb j).toNat < width.toNat

/-- The input bit of lane j: o[7 − j] (42_unpack.md R141). -/
def laneBit (p : Byte) (j : Nat) : Bool := p.getLsbD (7 - j)

/-- The pixels one packed octet writes, as (output address, bit) pairs in lane order, from write position `wp`: an
inactive lane gives no pixel and does not move the position (42_unpack.md R141). -/
def emitLanes (width : Word) (xb : BitVec 16) (p : Byte) : List Nat → OutAddr → List (OutAddr × Bool)
  | [], _ => []
  | j :: js, wp =>
    if laneActive width xb j then (wp, laneBit p j) :: emitLanes width xb p js (wp + 4#34)
    else emitLanes width xb p js wp

/-- The pixels ROW_BYTE writes for octet `p` in state `s`. -/
def pixelWrites (p : Byte) (s : State) : List (OutAddr × Bool) := emitLanes s.width s.xb p lanes s.wptr

/-- The four bytes R, G, B, A of a pixel: 1 is white, 0 is black, both opaque (42_unpack.md R142). -/
def pixelBytes (bit : Bool) : List Byte :=
  if bit then [0xFF#8, 0xFF#8, 0xFF#8, 0xFF#8] else [0x00#8, 0x00#8, 0x00#8, 0xFF#8]

/-- The offset of STATUS (10_state.md R32). -/
def statusOffset : BitVec 6 := 0x04#6

/-- What a read of the window at an aligned offset returns (43_host.md R161); CTRL and the reserved offsets read 0. -/
def windowWord (s : State) (off : BitVec 6) : Word :=
  if off = statusOffset then statusWord s
  else if off = 0x08#6 then s.errcode.setWidth 32
  else if off = 0x0C#6 then s.inLen
  else if off = 0x10#6 then s.pos
  else if off = 0x14#6 then s.imgType
  else if off = 0x18#6 then s.width
  else if off = 0x1C#6 then s.height
  else 0#32

end Sys2Proof.Machine
end

