-- ==== Sys2Proof/Machine/Ops.lean ====
section
/-! DEFINITION. The shared operations: memory, the octet read (40_bytecursor.md R100), the varint step (R101 to
R105), error entry (60_exceptions.md R184), the dimension check (41_header.md R134), pixel writes and the bitmap's
loop control (42_unpack.md R142 to R144), START (43_host.md R163) and reset (70_reset_and_hazards.md R200). There is
no return from an error (60_exceptions.md R185): only START and reset leave phase ERROR. -/

namespace Sys2Proof.Machine

/-! ### Memory -/

/-- The canonical form: addresses strictly rising. -/
abbrev Memory.wf (m : Memory) : Prop := m.Pairwise fun c d => c.1 < d.1

/-- The byte listed for an address, if one is. -/
def Memory.read : Memory → Nat → Option Byte
  | [], _ => none
  | (a, b) :: m, k => if a = k then some b else Memory.read m k

/-- Write one byte, keeping the canonical form. -/
def Memory.write : Memory → Nat → Byte → Memory
  | [], k, v => [(k, v)]
  | (a, b) :: m, k, v =>
    if k < a then (k, v) :: (a, b) :: m
    else if k = a then (k, v) :: m
    else (a, b) :: Memory.write m k v

/-- Write bytes at rising addresses (20_memory.md R53). -/
def Memory.writeBytes : Memory → Nat → List Byte → Memory
  | m, _, [] => m
  | m, a, v :: vs => Memory.writeBytes (m.write a v) (a + 1) vs

/-- What the input space holds at an address: a byte somebody has written, or the free value (20_memory.md R51). -/
def State.inRead (s : State) (a : Nat) : Byte := (s.input.read a).getD (Config.inputInitial a)

/-- What the output space holds at an address. -/
def State.outRead (s : State) (a : Nat) : Byte := (s.output.read a).getD (Config.outputInitial a)

/-! ### Error entry -/

/-- `raise E` (60_exceptions.md R184): ERRCODE ← code(E), PHASE ← ERROR, nothing else. -/
def raise (k : ErrKind) (s : State) : State := { s with errcode := k.code, phase := .error }

/-! ### The octet read and the varint step -/

/-- ReadOctet (40_bytecursor.md R100), its continuation `k` run after the cursor's advance: at the end of the input
it raises `eof` with POS unchanged. The octet itself is the instruction's operand, fetched at POS. -/
def withOctet (eof : ErrKind) (s : State) (k : State → State) : State :=
  if s.inLen ≤ s.pos then raise eof s else k { s with pos := s.pos + 1#32 }

/-- The common part of VarintStep (40_bytecursor.md R101): read, then guard, then accumulate. -/
def withGroup (g : BitVec 7) (s : State) (k : Word → State → State) : State :=
  withOctet .outOfBounds s fun s1 =>
    if guardFires s1.acc then raise .integerOverflow s1 else k (accumulate s1.acc g) s1

/-- A continuation octet: ACC ← acc2 (40_bytecursor.md R103). -/
def varintContinue (g : BitVec 7) (s : State) : State :=
  withGroup g s fun acc2 s1 => { s1 with acc := acc2 }

/-- A last octet: ACC ← 0 and the value goes to the phase's own rule (40_bytecursor.md R104). -/
def varintLast (g : BitVec 7) (s : State) (k : Word → State → State) : State :=
  withGroup g s fun v s1 => k v { s1 with acc := 0#32 }

/-! ### The header -/

/-- The fixed header octet is not zero (41_header.md R126). -/
def fixNonzero (s : State) : State := withOctet .outOfBounds s (raise .unsupportedExtendedHeader)

/-- IMG_TYPE ← v, then the image-type check (41_header.md R123, R124). -/
def acceptType (v : Word) (s : State) : State :=
  let s1 := { s with imgType := v }
  if v ≠ supportedType then raise .unsupportedImageType s1 else { s1 with phase := .fix }

/-- WIDTH ← v, unchecked (41_header.md R128, R130). -/
def acceptWidth (v : Word) (s : State) : State := { s with width := v, phase := .height }

/-- A dimension is in range: MIN_DIM ≤ d ≤ MAX_DIM, unsigned (41_header.md R134). -/
def dimInRange (d : Word) : Bool := minDim ≤ d && d ≤ maxDim

/-- DimensionCheck and entry to the bitmap (41_header.md R134). -/
def dimensionCheck (w h : Word) (s : State) : State :=
  if dimInRange w && dimInRange h then { s with y := 0#16, xb := 0#16, wptr := 0#34, phase := .rows }
  else raise .invalidDimensions s

/-- HEIGHT ← v, then the dimension check (41_header.md R133). -/
def acceptHeight (v : Word) (s : State) : State := dimensionCheck s.width v { s with height := v }

/-! ### The bitmap -/

/-- OutWrite(a, 4, v) of a pixel (42_unpack.md R142, 20_memory.md R53). -/
def pixelWrite (m : Memory) (a : OutAddr) (bit : Bool) : Memory := m.writeBytes a.toNat (pixelBytes bit)

/-- Every pixel write is admitted: a + 3 < OUT_CAP (20_memory.md R54). -/
def admitted (cap : Nat) (ws : List (OutAddr × Bool)) : Bool := ws.all fun w => w.1.toNat + 3 < cap

/-- The pixel writes of one step, and the write position after them (42_unpack.md R141). -/
def writePixels (ws : List (OutAddr × Bool)) (s : State) : State :=
  { s with
    output := ws.foldl (fun m w => pixelWrite m w.1 w.2) s.output
    wptr := s.wptr + BitVec.ofNat 34 (4 * ws.length) }

/-- EndCheck (42_unpack.md R144). -/
def endCheck (s : State) : State :=
  if s.inLen < s.pos then raise .truncatedBitmap s else { s with phase := .done }

/-- RowAdvance (42_unpack.md R143). -/
def rowAdvance (s : State) : State :=
  let nxb := s.xb.setWidth 17 + 8#17
  if nxb.toNat < s.width.toNat then { s with xb := nxb.setWidth 16 }
  else
    let s1 := { s with xb := 0#16, y := s.y + 1#16 }
    if s1.y.toNat = s1.height.toNat then endCheck s1 else s1

/-- ROW_BYTE (42_unpack.md R141). When a pixel write is not admitted the step does not happen at all: the state stays
as it was (20_memory.md R54; log entries 12, 17). -/
def unpackOctet (p : Byte) (s : State) : State :=
  withOctet bitmapEofCode s fun s1 =>
    let ws := pixelWrites p s1
    if admitted s1.platform.outCap ws then rowAdvance (writePixels ws s1) else s

/-! ### The host's commands and reset -/

/-- Every output byte the block has written, and whose write no STATUS read with DONE or ERR has ordered before the host's
accesses (20_memory.md R61, R63), lies below this address: the bytes [0, WPTR) of a decode that is still `pending`, and
`unseen` (log entry 18). -/
def State.unorderedBelow (s : State) : Nat := if s.sync = .pending then max s.unseen s.wptr.toNat else s.unseen

/-- START when the block is not BUSY (43_host.md R163). -/
def startDecode (s : State) : State :=
  { s with
    pos := 0#32, acc := 0#32, imgType := 0#32, width := 0#32, height := 0#32, y := 0#16, xb := 0#16
    wptr := 0#34, errcode := 0#3, phase := .type, sync := .pending, unseen := s.unorderedBelow }

/-- What a host read of STATUS establishes (20_memory.md R61, R63; 70_reset_and_hazards.md R205). -/
def syncAfterStatus (s : State) : HostSync :=
  match s.phase with
  | .idle => s.sync
  | .type => s.sync
  | .fix => s.sync
  | .width => s.sync
  | .height => s.sync
  | .rows => s.sync
  | .done => .owner
  | .error => .failed

/-- What a host read of STATUS leaves unordered: nothing when it returns DONE or ERR (20_memory.md R63). -/
def unseenAfterStatus (s : State) : Nat := if s.done || s.err then 0 else s.unseen

/-- How a decode that reset meets stands for the host (70_reset_and_hazards.md R200; log entry 11). -/
def syncAfterReset (s : State) : HostSync :=
  match s.sync with
  | .owner => .owner
  | .pending => if s.err then .failedUnread else .abandoned
  | .failed => .failed
  | .abandoned => .abandoned
  | .failedUnread => .failedUnread

/-- A host read of the window at an aligned offset (43_host.md R161): no register and no memory byte changes. -/
def hostReadWord (off : BitVec 6) (s : State) : State :=
  { s with
    rdata := windowWord s off
    sync := if off = statusOffset then syncAfterStatus s else s.sync
    unseen := if off = statusOffset then unseenAfterStatus s else s.unseen }

/-- Reset (70_reset_and_hazards.md R200): every register to its reset value, the memories untouched
(log entry 11). -/
def resetBlock (s : State) : State :=
  { s with
    phase := .idle, pos := 0#32, acc := 0#32, imgType := 0#32, width := 0#32, height := 0#32, y := 0#16
    xb := 0#16, wptr := 0#34, errcode := 0#3, inLen := 0#32
    sync := syncAfterReset s, unseen := s.unorderedBelow }

/-- One free byte, and the state that has drawn it (20_memory.md R61 item 3). -/
def drawnByte (s : State) : Byte := Config.freeByte s.draws

/-- The state after one draw. -/
def afterDraw (s : State) : State := { s with draws := s.draws + 1 }

end Sys2Proof.Machine
end

