-- ==== Sys2Proof/Machine/Header.lean ====
section
/-! DEFINITION. The meanings of the header's STEP rows (41_header.md R120 to R134). -/

namespace Sys2Proof.Machine

/-- What an instruction answers: a next state, a fault or a refusal. -/
abbrev Answer := Host.Outcome State Fault Refusal

/-- TYPE_CONT (41_header.md R122). -/
def execTypeCont (g : BitVec 7) (s : State) : Answer := .next (varintContinue g s)

/-- TYPE_LAST (41_header.md R123). -/
def execTypeLast (g : BitVec 7) (s : State) : Answer := .next (varintLast g s acceptType)

/-- FIX_ZERO (41_header.md R125). -/
def execFixZero (s : State) : Answer :=
  .next (withOctet .outOfBounds s fun s1 => { s1 with phase := .width })

/-- FIX_NONZERO_B7 (41_header.md R126): every non-zero octet is rejected alike. -/
def execFixNonzeroB7 (_low : BitVec 7) (s : State) : Answer := .next (fixNonzero s)

/-- FIX_NONZERO_B6 (41_header.md R126). -/
def execFixNonzeroB6 (_low : BitVec 6) (s : State) : Answer := .next (fixNonzero s)

/-- FIX_NONZERO_B5 (41_header.md R126). -/
def execFixNonzeroB5 (_low : BitVec 5) (s : State) : Answer := .next (fixNonzero s)

/-- FIX_NONZERO_B4 (41_header.md R126). -/
def execFixNonzeroB4 (_low : BitVec 4) (s : State) : Answer := .next (fixNonzero s)

/-- FIX_NONZERO_B3 (41_header.md R126). -/
def execFixNonzeroB3 (_low : BitVec 3) (s : State) : Answer := .next (fixNonzero s)

/-- FIX_NONZERO_B2 (41_header.md R126). -/
def execFixNonzeroB2 (_low : BitVec 2) (s : State) : Answer := .next (fixNonzero s)

/-- FIX_NONZERO_B1 (41_header.md R126). -/
def execFixNonzeroB1 (_low : BitVec 1) (s : State) : Answer := .next (fixNonzero s)

/-- FIX_NONZERO_B0 (41_header.md R126). -/
def execFixNonzeroB0 (s : State) : Answer := .next (fixNonzero s)

/-- WIDTH_CONT (41_header.md R129). -/
def execWidthCont (g : BitVec 7) (s : State) : Answer := .next (varintContinue g s)

/-- WIDTH_LAST (41_header.md R130). -/
def execWidthLast (g : BitVec 7) (s : State) : Answer := .next (varintLast g s acceptWidth)

/-- HEIGHT_CONT (41_header.md R132). -/
def execHeightCont (g : BitVec 7) (s : State) : Answer := .next (varintContinue g s)

/-- HEIGHT_LAST (41_header.md R133). -/
def execHeightLast (g : BitVec 7) (s : State) : Answer := .next (varintLast g s acceptHeight)

end Sys2Proof.Machine
end

