-- ==== Sys2Proof/Machine/Unpack.lean ====
section
/-! DEFINITION. The meaning of the bitmap's STEP row (42_unpack.md R140 to R146). -/

namespace Sys2Proof.Machine

/-- ROW_BYTE (42_unpack.md R141). -/
def execRowByte (p : Byte) (s : State) : Answer := .next (unpackOctet p s)

end Sys2Proof.Machine
end

