-- ==== Sys2Proof/Machine/HostPort.lean ====
section
/-! DEFINITION. The meanings of the HOST rows (43_host.md R161 to R167). -/

namespace Sys2Proof.Machine

/-- READ_REG (43_host.md R161). An offset that is no multiple of 4 encodes no row and is refused (R167). The data bits of
a read have no effect (log entry 15). -/
def execReadReg (off : BitVec 6) (_data : Word) (s : State) : Answer :=
  if offsetAligned off then .next (hostReadWord off s) else .refused .badRegisterAccess

/-- START (43_host.md R163); while BUSY it is ignored (R164). -/
def execStart (_ign : BitVec 31) (s : State) : Answer := .next (if s.busy then s else startDecode s)

/-- CTRL_WRITE_ZERO (43_host.md R162): no effect. -/
def execCtrlWriteZero (_ign : BitVec 31) (s : State) : Answer := .next s

/-- WRITE_IGNORED_STATUS (43_host.md R165): ignored. -/
def execWriteIgnoredStatus (_data : Word) (s : State) : Answer := .next s

/-- WRITE_IGNORED_ERRCODE (43_host.md R165): ignored. -/
def execWriteIgnoredErrcode (_data : Word) (s : State) : Answer := .next s

/-- WRITE_IN_LEN (43_host.md R166): IN_LEN ← data, unless BUSY. -/
def execWriteInLen (data : Word) (s : State) : Answer := .next (if s.busy then s else { s with inLen := data })

/-- WRITE_IGNORED_RO (43_host.md R165): ignored. -/
def execWriteIgnoredRo (_off : BitVec 6) (_data : Word) (s : State) : Answer := .next s

/-- WRITE_IGNORED_RSVD (43_host.md R165): ignored. -/
def execWriteIgnoredRsvd (_off : BitVec 6) (_data : Word) (s : State) : Answer := .next s

end Sys2Proof.Machine
end

