-- ==== Sys2Proof/Machine/Dispatch.lean ====
section
/-! DEFINITION. One arm for each constructor of Instr, each one call of that instruction's meaning. -/

namespace Sys2Proof.Machine

def exec (i : Instr) (s : State) : Host.Outcome State Fault Refusal :=
  match i with
  -- the header's STEP rows
  | .typeCont g => Sys2Proof.Machine.execTypeCont g s
  | .typeLast g => Sys2Proof.Machine.execTypeLast g s
  | .fixZero => Sys2Proof.Machine.execFixZero s
  | .fixNonzeroB7 low => Sys2Proof.Machine.execFixNonzeroB7 low s
  | .fixNonzeroB6 low => Sys2Proof.Machine.execFixNonzeroB6 low s
  | .fixNonzeroB5 low => Sys2Proof.Machine.execFixNonzeroB5 low s
  | .fixNonzeroB4 low => Sys2Proof.Machine.execFixNonzeroB4 low s
  | .fixNonzeroB3 low => Sys2Proof.Machine.execFixNonzeroB3 low s
  | .fixNonzeroB2 low => Sys2Proof.Machine.execFixNonzeroB2 low s
  | .fixNonzeroB1 low => Sys2Proof.Machine.execFixNonzeroB1 low s
  | .fixNonzeroB0 => Sys2Proof.Machine.execFixNonzeroB0 s
  | .widthCont g => Sys2Proof.Machine.execWidthCont g s
  | .widthLast g => Sys2Proof.Machine.execWidthLast g s
  | .heightCont g => Sys2Proof.Machine.execHeightCont g s
  | .heightLast g => Sys2Proof.Machine.execHeightLast g s
  -- the bitmap's STEP row
  | .rowByte p => Sys2Proof.Machine.execRowByte p s
  -- the HOST rows
  | .readReg off data => Sys2Proof.Machine.execReadReg off data s
  | .start ign => Sys2Proof.Machine.execStart ign s
  | .ctrlWriteZero ign => Sys2Proof.Machine.execCtrlWriteZero ign s
  | .writeIgnoredStatus data => Sys2Proof.Machine.execWriteIgnoredStatus data s
  | .writeIgnoredErrcode data => Sys2Proof.Machine.execWriteIgnoredErrcode data s
  | .writeInLen data => Sys2Proof.Machine.execWriteInLen data s
  | .writeIgnoredRo off data => Sys2Proof.Machine.execWriteIgnoredRo off data s
  | .writeIgnoredRsvd off data => Sys2Proof.Machine.execWriteIgnoredRsvd off data s

end Sys2Proof.Machine
end

