-- ==== Sys2Proof/Machine/Agents.lean ====
section
/-! DEFINITION. The two agents and the reset signal (43_host.md R160, 20_memory.md R57): the block's step from the
octet at POS (30_encoding.md R80), the host's accesses to the register window and to the two memories (20_memory.md
R50, R61, R62; 70_reset_and_hazards.md R205, R206), and whose turn it is. -/

namespace Sys2Proof.Machine

/-- What an empty input raises in a phase that reads an octet (40_bytecursor.md R100, 42_unpack.md R145); phases IDLE,
DONE and ERROR take no step. -/
def eofKind : Phase → Option ErrKind
  | .idle => none
  | .type => some .outOfBounds
  | .fix => some .outOfBounds
  | .width => some .outOfBounds
  | .height => some .outOfBounds
  | .rows => some bitmapEofCode
  | .done => none
  | .error => none

/-- The STEP word of the block's next step: PHASE and the octet at POS (30_encoding.md R85). -/
def State.fetchWord (s : State) : BitVec 11 := stepWord s.phase (s.inRead s.pos.toNat)

/-- One step of the block (30_encoding.md R80). No octet left: the phase's end-of-input error. A word that selects no
row: the block takes no step (log entries 12, 16). -/
def blockStep (s : State) : Answer :=
  match eofKind s.phase with
  | none => .next s
  | some k =>
    if s.inLen ≤ s.pos then .next (raise k s)
    else
      match decode (.step s.fetchWord) with
      | .ok i => exec i s
      | .error _ => .next s

/-- A host access to the register window (43_host.md R160, R167): only an aligned 32-bit access inside the window has
a meaning, its HOST word's. -/
def registerAccess (write : Bool) (offset bytes : Nat) (data : Word) (s : State) : Answer :=
  if bytes = regAccessBytes ∧ offset < regWindow then
    match decode (.host (hostWord write (BitVec.ofNat 6 offset) data)) with
    | .ok i => exec i s
    | .error _ => .refused .badRegisterAccess
  else .refused .badRegisterAccess

/-- A read byte as the host's datum. -/
def byteDatum (b : Byte) : Word := b.setWidth 32

/-- The host does not hold the buffers: the block is BUSY, or STATUS has not been read with BUSY = 0 since START
(70_reset_and_hazards.md R205). -/
def State.decodeOutstanding (s : State) : Bool := s.busy || s.sync == .pending

/-- A host access to output byte `a` comes after every write of the block to it (20_memory.md R61 item 2, R63). -/
def State.outputOrdered (s : State) (a : Nat) : Bool := s.unorderedBelow ≤ a

/-- The last decode ended in ERROR, and no START has come since (20_memory.md R61 item 3); in phase ERROR, and after a
reset from it. -/
def State.afterError (s : State) : Bool := s.err || s.sync == .failed || s.sync == .failedUnread

/-- A host read of output byte `a` returns what the space holds (20_memory.md R61): it is made neither while BUSY nor
after ERROR, and every write of the block to the byte is ordered before it. -/
def State.outputVisible (s : State) (a : Nat) : Bool := !s.busy && !s.afterError && s.outputOrdered a

/-- The host writes an octet of the input space (20_memory.md R61 item 1, R62; 70_reset_and_hazards.md R205). -/
def hostWriteInput (a : InAddr) (b : Byte) (s : State) : Answer :=
  if s.decodeOutstanding then .refused .inputWriteDuringDecode
  else .next { s with input := s.input.write a.toNat b }

/-- The host reads an octet of the input space (20_memory.md R50: before START). While a decode is outstanding the
spec states no result, and the read returns a free value (log entry 8). -/
def hostReadInput (a : InAddr) (s : State) : Answer :=
  if s.decodeOutstanding then .next (afterDraw { s with rdata := byteDatum (drawnByte s) })
  else .next { s with rdata := byteDatum (s.inRead a.toNat) }

/-- The host writes a byte of the output space (70_reset_and_hazards.md R206; log entry 14). A write that no rule orders
after the block's own write to the byte leaves a free value there (log entry 9). -/
def hostWriteOutput (a : OutAddr) (b : Byte) (s : State) : Answer :=
  if s.platform.outCap ≤ a.toNat then .fault .outputAddressUnbacked
  else if s.busy then .refused .outputWriteWhileBusy
  else if s.outputOrdered a.toNat then .next { s with output := s.output.write a.toNat b }
  else .next (afterDraw { s with output := s.output.write a.toNat (drawnByte s) })

/-- The host reads a byte of the output space (20_memory.md R61 items 2 and 3; log entry 14). -/
def hostReadOutput (a : OutAddr) (s : State) : Answer :=
  if s.platform.outCap ≤ a.toNat then .fault .outputAddressUnbacked
  else if s.outputVisible a.toNat then .next { s with rdata := byteDatum (s.outRead a.toNat) }
  else .next (afterDraw { s with rdata := byteDatum (drawnByte s) })

/-- One entry of the agenda happens. -/
def runEvent (e : HostEvent) (s : State) : Answer :=
  match e with
  | .block => blockStep s
  | .register write offset bytes data => registerAccess write offset bytes data s
  | .reset => .next (resetBlock s)
  | .writeInput a b => hostWriteInput a b s
  | .readInput a => hostReadInput a s
  | .writeOutput a b => hostWriteOutput a b s
  | .readOutput a => hostReadOutput a s

/-- The places [a, a + n) and [b, b + m) have no address in common. -/
def placesDisjoint (a n b m : Nat) : Bool := n == 0 || m == 0 || a + n ≤ b || b + m ≤ a

/-- The three spaces are disjoint where the platform places them (20_memory.md R50, R65; log entry 13). -/
def State.spacesDisjoint (s : State) : Bool :=
  placesDisjoint s.platform.inBase s.inLen.toNat s.platform.outBase s.platform.outCap
    && placesDisjoint s.platform.regBase regWindow s.platform.inBase s.inLen.toNat
    && placesDisjoint s.platform.regBase regWindow s.platform.outBase s.platform.outCap

/-- Whoever's turn it is moves: the agenda's head, or the block when the agenda is empty (log entry 3). -/
def nextMove (s : State) : Answer :=
  match s.agenda with
  | [] => blockStep s
  | e :: rest => runEvent e { s with agenda := rest }

/-- The step: the reserved error code faults (93_implementation_defined.md U12), overlapping spaces are refused (U6),
else the next agent moves. -/
def machineStep (s : State) : Answer :=
  if s.errcode = 7#3 then .fault .reservedErrorCode
  else if s.spacesDisjoint then nextMove s
  else .refused .overlappingSpaces

/-! ### Placing one instruction where the step finds it -/

/-- A STEP word placed for the next step: PHASE, the octet at POS inside the input buffer, and the block's turn. POS
moves only where no input buffer can hold it (2^32 − 1). -/
def placeStepWord (w : BitVec 11) (s : State) : State :=
  let p := if s.pos = 0xFFFFFFFF#32 then 0#32 else s.pos
  { s with
    phase := Phase.ofBits (w.extractLsb' 8 3)
    pos := p
    inLen := if s.inLen ≤ p then p + 1#32 else s.inLen
    input := s.input.write p.toNat (w.extractLsb' 0 8)
    agenda := .block :: s.agenda }

/-- A HOST word placed for the next step: the host makes that access. -/
def placeHostWord (w : BitVec 39) (s : State) : State :=
  { s with
    agenda := .register (w.getLsbD 38) (w.extractLsb' 32 6).toNat regAccessBytes (w.extractLsb' 0 32) :: s.agenda }

/-- A table word placed for the next step. -/
def placeWord (tw : TableWord) (s : State) : State :=
  match tw with
  | .step w => placeStepWord w s
  | .host w => placeHostWord w s

end Sys2Proof.Machine
end

