-- ==== Sys2Proof/Machine/Step.lean ====
section
/-! DEFINITION. The step function and the placing of one instruction where it fetches. -/

namespace Sys2Proof.Machine

/-- One step of the machine. -/
def step (s : State) : Host.Outcome State Fault Refusal := machineStep s

/-- `s` with one instruction of spec/opcode_table.json placed so that the very next step runs it (log entry 10). A
number that is no word of its format places nothing. -/
def State.withFetchWord (s : State) (nbits w : Nat) : State :=
  match TableWord.ofNat nbits w with
  | some tw => placeWord tw s
  | none => s

end Sys2Proof.Machine
end

