-- ==== Sys2Proof/Safety.lean ====
section
/-! DEFINITION. What counts as a sound state and a safe step, and the vocabulary of the statements: the invariant of
every step, the block's registers as one value, the bytes of a pixel, the numbers varints denote. -/

namespace Sys2Proof.Machine

/-- A phase in which the header's image type has been accepted. -/
def typeAccepted : Phase → Bool
  | .idle => false
  | .type => false
  | .fix => true
  | .width => true
  | .height => true
  | .rows => true
  | .done => true
  | .error => false

/-- A phase that is not inside a varint and follows no error: ACC is 0 in it. -/
def betweenVarints : Phase → Bool
  | .idle => true
  | .type => false
  | .fix => true
  | .width => false
  | .height => false
  | .rows => true
  | .done => true
  | .error => false

/-- A phase that reads the header (10_state.md R21). -/
def inHeader : Phase → Bool
  | .idle => false
  | .type => true
  | .fix => true
  | .width => true
  | .height => true
  | .rows => false
  | .done => false
  | .error => false

/-- A dimension the header check admits (41_header.md R134), as numbers. -/
abbrev dimLegal (d : Word) : Prop := 1 ≤ d.toNat ∧ d.toNat ≤ 65535

/-- The invariant every step keeps. -/
structure Sound (s : State) : Prop where
  /-- The input space is in canonical form. -/
  input_wf : s.input.wf
  /-- The output space is in canonical form. -/
  output_wf : s.output.wf
  /-- The input space lists 32-bit addresses only (20_memory.md R50). -/
  input_addr : ∀ c ∈ s.input, c.1 < 2 ^ 32
  /-- The output space lists backed addresses only (20_memory.md R50, R54). -/
  output_addr : ∀ c ∈ s.output, c.1 < s.platform.outCap
  /-- While BUSY, POS ≤ IN_LEN (10_state.md R23). -/
  pos_le : s.busy = true → s.pos.toNat ≤ s.inLen.toNat
  /-- ACC < 2^31 (10_state.md R24). -/
  acc_lt : s.acc.toNat < 2 ^ 31
  /-- ACC is 0 outside a varint (40_bytecursor.md R104). -/
  acc_zero : betweenVarints s.phase = true → s.acc = 0#32
  /-- The header registers hold values < 2^31 (10_state.md R25). -/
  imgType_lt : s.imgType.toNat < 2 ^ 31
  width_lt : s.width.toNat < 2 ^ 31
  height_lt : s.height.toNat < 2 ^ 31
  /-- ERRCODE ≠ 0 exactly when PHASE = ERROR, and it is never 7 (10_state.md R29). -/
  err_iff : s.errcode ≠ 0#3 ↔ s.phase = .error
  err_legal : s.errcode ≠ 7#3
  /-- After the image-type check IMG_TYPE = 0 (41_header.md R124). -/
  type_zero : typeAccepted s.phase = true → s.imgType = 0#32
  /-- In ROWS and DONE the dimensions are legal (41_header.md R134, 10_state.md R25). -/
  dims : s.phase = .rows ∨ s.phase = .done → dimLegal s.width ∧ dimLegal s.height
  /-- In ROWS: Y < HEIGHT, XB is a multiple of 8 below WIDTH, WPTR = (Y × WIDTH + XB) × 4 (10_state.md R26 to R28). -/
  rows_at : s.phase = .rows → s.y.toNat < s.height.toNat ∧ s.xb.toNat % 8 = 0 ∧ s.xb.toNat < s.width.toNat ∧
    s.wptr.toNat = (s.y.toNat * s.width.toNat + s.xb.toNat) * 4
  /-- At DONE: Y = HEIGHT, XB = 0, WPTR = WIDTH × HEIGHT × 4 (10_state.md R28, 42_unpack.md R147 item 4). -/
  done_at : s.phase = .done → s.y.toNat = s.height.toNat ∧ s.xb = 0#16 ∧
    s.wptr.toNat = s.width.toNat * s.height.toNat * 4
  /-- In the header Y, XB and WPTR are still as START left them (43_host.md R163, 41_header.md R134). -/
  header_at : inHeader s.phase = true → s.y = 0#16 ∧ s.xb = 0#16 ∧ s.wptr = 0#34
  /-- After a STATUS read with DONE or ERR every earlier write of the block is ordered (20_memory.md R63). -/
  seen_all : s.sync = .owner ∨ s.sync = .failed → s.unseen = 0
  /-- While BUSY the host has not read STATUS with BUSY = 0 (70_reset_and_hazards.md R205). -/
  sync_busy : s.busy = true → s.sync = .pending

/-- The step answers a next state. -/
def stepGoesOn (s : State) : Prop := ∃ t, step s = .next t

/-- The step can move: no reserved error code, and disjoint spaces. -/
abbrev State.runnable (s : State) : Prop := s.errcode ≠ 7#3 ∧ s.spacesDisjoint = true

/-- The eleven registers of 10_state.md R20, as one value. -/
structure Registers where
  phase : Phase
  pos : Word
  acc : Word
  imgType : Word
  width : Word
  height : Word
  y : BitVec 16
  xb : BitVec 16
  wptr : OutAddr
  errcode : BitVec 3
  inLen : Word
  deriving DecidableEq, Repr

/-- The registers of a state. -/
def State.registers (s : State) : Registers :=
  { phase := s.phase, pos := s.pos, acc := s.acc, imgType := s.imgType, width := s.width, height := s.height
    y := s.y, xb := s.xb, wptr := s.wptr, errcode := s.errcode, inLen := s.inLen }

/-- The register values of 10_state.md R20 at reset. -/
def Registers.atReset : Registers :=
  { phase := .idle, pos := 0#32, acc := 0#32, imgType := 0#32, width := 0#32, height := 0#32, y := 0#16, xb := 0#16
    wptr := 0#34, errcode := 0#3, inLen := 0#32 }

/-- The number of packed octets in a row, ceil(WIDTH / 8) (30_encoding.md R78). -/
def rowStride (width : Nat) : Nat := (width + 7) / 8

/-- The number of active lanes, min(8, WIDTH − XB) (42_unpack.md R146). -/
def activeLanes (width xb : Nat) : Nat := min 8 (width - xb)

/-- Byte c (0 R, 1 G, 2 B, 3 A) of the pixel of a bit (30_encoding.md R79). -/
def pixelByte (bit : Bool) (c : Nat) : Byte := if c = 3 then 0xFF#8 else if bit then 0xFF#8 else 0x00#8

/-- The output address of byte c of the pixel of row y, column x (20_memory.md R58). -/
def pixelAddress (width y x c : Nat) : Nat := (y * width + x) * 4 + c

/-- The bit of row y, column x in the packed rows that start at input address `base` (42_unpack.md R147 item 3). -/
def packedBit (s : State) (base width y x : Nat) : Bool :=
  (s.inRead (base + y * rowStride width + x / 8)).getLsbD (7 - x % 8)

/-- The number a list of 7-bit groups denotes, most significant group first (30_encoding.md R72). -/
def groupsValue (gs : List (BitVec 7)) : Nat := gs.foldl (fun v g => v * 128 + g.toNat) 0

/-- The octets of a varint with these groups: continuation bit 1 in all but the last (30_encoding.md R71). -/
def varintOctets : List (BitVec 7) → List Byte
  | [] => []
  | [g] => [(0#1 ++ g : BitVec 8)]
  | g :: g' :: gs => (1#1 ++ g : BitVec 8) :: varintOctets (g' :: gs)

/-- The input space holds these octets from address `a` on. -/
def State.inputHolds (s : State) : Nat → List Byte → Prop
  | _, [] => True
  | a, o :: os => s.inRead a = o ∧ s.inputHolds (a + 1) os

/-- The header's STEP rows. -/
def isHeaderRow : Instr → Bool
  | .typeCont _ => true
  | .typeLast _ => true
  | .fixZero => true
  | .fixNonzeroB7 _ => true
  | .fixNonzeroB6 _ => true
  | .fixNonzeroB5 _ => true
  | .fixNonzeroB4 _ => true
  | .fixNonzeroB3 _ => true
  | .fixNonzeroB2 _ => true
  | .fixNonzeroB1 _ => true
  | .fixNonzeroB0 => true
  | .widthCont _ => true
  | .widthLast _ => true
  | .heightCont _ => true
  | .heightLast _ => true
  | .rowByte _ => false
  | .readReg _ _ => false
  | .start _ => false
  | .ctrlWriteZero _ => false
  | .writeIgnoredStatus _ => false
  | .writeIgnoredErrcode _ => false
  | .writeInLen _ => false
  | .writeIgnoredRo _ _ => false
  | .writeIgnoredRsvd _ _ => false

/-- The eight rows of FIX_NONZERO (30_encoding.md R80). -/
def isFixNonzeroRow : Instr → Bool
  | .typeCont _ => false
  | .typeLast _ => false
  | .fixZero => false
  | .fixNonzeroB7 _ => true
  | .fixNonzeroB6 _ => true
  | .fixNonzeroB5 _ => true
  | .fixNonzeroB4 _ => true
  | .fixNonzeroB3 _ => true
  | .fixNonzeroB2 _ => true
  | .fixNonzeroB1 _ => true
  | .fixNonzeroB0 => true
  | .widthCont _ => false
  | .widthLast _ => false
  | .heightCont _ => false
  | .heightLast _ => false
  | .rowByte _ => false
  | .readReg _ _ => false
  | .start _ => false
  | .ctrlWriteZero _ => false
  | .writeIgnoredStatus _ => false
  | .writeIgnoredErrcode _ => false
  | .writeInLen _ => false
  | .writeIgnoredRo _ _ => false
  | .writeIgnoredRsvd _ _ => false

end Sys2Proof.Machine
end

