-- ==== Sys2Proof/Certificates/Slice0/Obligations.lean ====
section
/-! DEFINITION. The statements for the provers, each from numbered rules of spec/. The fields agenda, rdata, sync,
unseen and draws of State are the model's own (log entries 3, 5, 6, 18, 7); what a clause says of them is the model's
choice, and what it says of the registers and the memories is the spec's. -/

open Sys2Proof Sys2Proof.Machine

/-! ### Encoding -/

/-- 30_encoding.md R71, R80, R85: the decoder reads every well-formed instruction back from its encoding, with every
operand at every value. -/
def Obligations.DecodeReadsBackEncode : Prop :=
  ∀ i : Instr, i.wf = true → decode (encode i) = .ok i

/-- 30_encoding.md R85: a word that decodes is the encoding of what it decodes to, so no bit of a word is dropped and
no two words mean the same instruction. -/
def Obligations.EncodeReadsBackDecode : Prop :=
  ∀ (w : TableWord) (i : Instr), decode w = .ok i → i.wf = true ∧ encode i = w

/-- 30_encoding.md R85, spec/opcode_table.json: a STEP word decodes to an instruction with a row's mnemonic exactly
when the row's mask and match select it. -/
def Obligations.StepWordsFollowTheTable : Prop :=
  ∀ (w : BitVec 11), ∀ r ∈ stepRows,
    (r.selects w.toNat = true ↔ ∃ i, decode (.step w) = .ok i ∧ i.mnemonic = r.mnemonic)

/-- 30_encoding.md R85, spec/opcode_table.json: the same of the HOST words. -/
def Obligations.HostWordsFollowTheTable : Prop :=
  ∀ (w : BitVec 39), ∀ r ∈ hostRows,
    (r.selects w.toNat = true ↔ ∃ i, decode (.host w) = .ok i ∧ i.mnemonic = r.mnemonic)

/-- 30_encoding.md R80, R85, 43_host.md R167: a STEP word decodes exactly in phases 1 to 5, a HOST word exactly at an
aligned offset, and every other word is rejected by name. -/
def Obligations.WordsOutsideTheTableAreRejected : Prop :=
  (∀ (ph : Phase) (o : Byte),
      ((∃ i, decode (.step (stepWord ph o)) = .ok i) ↔ 1 ≤ ph.bits.toNat ∧ ph.bits.toNat ≤ 5) ∧
      (ph.bits.toNat = 0 ∨ ph.bits.toNat = 6 ∨ ph.bits.toNat = 7 →
        decode (.step (stepWord ph o)) = .error .noStepInPhase)) ∧
  (∀ (wr : Bool) (off : BitVec 6) (data : Word),
      ((∃ i, decode (.host (hostWord wr off data)) = .ok i) ↔ off.toNat % 4 = 0) ∧
      (off.toNat % 4 ≠ 0 → decode (.host (hostWord wr off data)) = .error .misalignedOffset))

/-- A sanity statement: words written out from 30_encoding.md R80 and R85 decode to what they stand for. -/
def Obligations.SampleWordsDecode : Prop :=
  decode (.step 0b001_10000010#11) = .ok (.typeCont 2#7) ∧
  decode (.step 0b010_00000000#11) = .ok .fixZero ∧
  decode (.step 0b010_00100101#11) = .ok (.fixNonzeroB5 5#5) ∧
  decode (.step 0b011_00101100#11) = .ok (.widthLast 44#7) ∧
  decode (.step 0b100_00000001#11) = .ok (.heightLast 1#7) ∧
  decode (.step 0b101_10100101#11) = .ok (.rowByte 0xA5#8) ∧
  decode (.host 0b1_000000_00000000000000000000000000000001#39) = .ok (.start 0#31) ∧
  decode (.host 0b0_000100_00000000000000000000000000000000#39) = .ok (.readReg 0x04#6 0#32) ∧
  decode (.host 0b1_001100_00000000000000000000000000000101#39) = .ok (.writeInLen 5#32)

/-! ### The step -/

/-- 30_encoding.md R80: a BUSY block with an octet left runs the instruction that PHASE and the octet at POS select;
with an empty agenda, and when it is its turn (the agenda is the model's, log entry 3). -/
def Obligations.BlockStepRunsTheSelectedRow : Prop :=
  ∀ (s : State) (i : Instr), s.runnable → s.busy = true → s.pos.toNat < s.inLen.toNat →
    decode (.step (stepWord s.phase (s.inRead s.pos.toNat))) = .ok i →
    (s.agenda = [] → step s = exec i s) ∧
    (∀ rest, s.agenda = .block :: rest → step s = exec i { s with agenda := rest })

/-- 43_host.md R160, 30_encoding.md R85: an aligned 32-bit access of the host runs its HOST word's instruction. -/
def Obligations.HostAccessRunsItsRow : Prop :=
  ∀ (s : State) (wr : Bool) (off : BitVec 6) (data : Word) (rest : List HostEvent) (i : Instr),
    s.runnable → s.agenda = .register wr off.toNat 4 data :: rest →
    decode (.host (hostWord wr off data)) = .ok i → step s = exec i { s with agenda := rest }

/-- 43_host.md R167: any other access to the window is refused. -/
def Obligations.OtherRegisterAccessIsRefused : Prop :=
  ∀ (s : State) (wr : Bool) (offset bytes : Nat) (data : Word) (rest : List HostEvent),
    s.runnable → s.agenda = .register wr offset bytes data :: rest →
    ¬(bytes = 4 ∧ offset % 4 = 0 ∧ offset < 64) → step s = .refused .badRegisterAccess

/-- 30_encoding.md R80 and 60_exceptions.md R194 say that in IDLE, DONE and ERROR the block takes no step and changes no
state. That its turn then answers the same state, as a next state, is the model's choice (log entry 12). -/
def Obligations.RestingBlockTakesNoStep : Prop :=
  ∀ (s : State), s.runnable → s.phase = .idle ∨ s.phase = .done ∨ s.phase = .error →
    (s.agenda = [] → step s = .next s) ∧
    (∀ rest, s.agenda = .block :: rest → step s = .next { s with agenda := rest })

/-- 40_bytecursor.md R100, 41_header.md R127, 42_unpack.md R145: a BUSY block with no octet left raises OutOfBounds in
the header and TruncatedBitmap in the bitmap, and nothing else changes. -/
def Obligations.EndOfInputRaisesThePhasesError : Prop :=
  ∀ (s : State), s.runnable → s.busy = true → s.inLen.toNat ≤ s.pos.toNat → s.agenda = [] →
    step s = .next { s with errcode := if s.phase = .rows then 6#3 else 1#3, phase := .error }

/-- The instruction placed by `withFetchWord` is the one the very next step after reset runs (log entry 10). -/
def Obligations.PlacedWordRunsFirstAfterReset : Prop :=
  (∀ (w : BitVec 11) (i : Instr), decode (.step w) = .ok i →
    step (State.reset.withFetchWord 16 w.toNat) = exec i { placeStepWord w State.reset with agenda := [] }) ∧
  (∀ (w : BitVec 39) (i : Instr), decode (.host w) = .ok i →
    step (State.reset.withFetchWord 40 w.toNat) = exec i State.reset)

/-- 93_implementation_defined.md U12: a reserved error code faults. That every step is refused when any two of the three
spaces overlap, the register window included, is the model's choice (log entry 13, DEDUCED from 20_memory.md R50; U6 names
the input and the output space only). -/
def Obligations.ReservedCodeAndOverlapStop : Prop :=
  (∀ s : State, s.errcode = 7#3 → step s = .fault .reservedErrorCode) ∧
  (∀ s : State, s.errcode ≠ 7#3 → s.spacesDisjoint = false → step s = .refused .overlappingSpaces)

/-! ### The header -/

/-- 40_bytecursor.md R103, 41_header.md R122, R129, R132: a continuation octet that passes the guard. -/
def Obligations.ContinuationOctetAccumulates : Prop :=
  ∀ (s : State) (g : BitVec 7) (i : Instr), i = .typeCont g ∨ i = .widthCont g ∨ i = .heightCont g →
    s.pos.toNat < s.inLen.toNat → s.acc &&& 0xFF000000#32 = 0#32 →
    exec i s = .next { s with pos := s.pos + 1#32, acc := (s.acc <<< 7) ||| g.setWidth 32 }

/-- 40_bytecursor.md R102: the overflow guard, in all six varint rows; ACC is not changed. -/
def Obligations.GuardRaisesIntegerOverflow : Prop :=
  ∀ (s : State) (g : BitVec 7) (i : Instr),
    i ∈ [.typeCont g, .typeLast g, .widthCont g, .widthLast g, .heightCont g, .heightLast g] →
    s.pos.toNat < s.inLen.toNat → s.acc &&& 0xFF000000#32 ≠ 0#32 →
    exec i s = .next { s with pos := s.pos + 1#32, errcode := 2#3, phase := .error }

/-- 40_bytecursor.md R102: the guard passes exactly when ACC < 2^24, and then the new accumulator is
ACC × 128 + G, below 2^31. -/
def Obligations.GuardBoundsTheAccumulator : Prop :=
  ∀ (acc : Word) (g : BitVec 7),
    (guardFires acc = false ↔ acc.toNat < 2 ^ 24) ∧
    (guardFires acc = false → (accumulate acc g).toNat = acc.toNat * 128 + g.toNat ∧
      (accumulate acc g).toNat < 2 ^ 31)

/-- 40_bytecursor.md R100, R105, 41_header.md R127: every header row raises OutOfBounds when no octet is left, before
any other check, with POS unchanged. -/
def Obligations.HeaderRowsRaiseOutOfBounds : Prop :=
  ∀ (s : State) (i : Instr), isHeaderRow i = true → s.inLen.toNat ≤ s.pos.toNat →
    exec i s = .next { s with errcode := 1#3, phase := .error }

/-- 41_header.md R123, R124: TYPE_LAST, its encoding, its three failures in check order and its acceptance. -/
def Obligations.TypeLastChecksTheType : Prop :=
  ∀ (s : State) (g : BitVec 7),
    decode (.step (stepWord .type (0#1 ++ g : BitVec 8))) = .ok (.typeLast g) ∧
    (s.inLen.toNat ≤ s.pos.toNat → exec (.typeLast g) s = .next { s with errcode := 1#3, phase := .error }) ∧
    (s.pos.toNat < s.inLen.toNat → s.acc &&& 0xFF000000#32 ≠ 0#32 →
      exec (.typeLast g) s = .next { s with pos := s.pos + 1#32, errcode := 2#3, phase := .error }) ∧
    (s.pos.toNat < s.inLen.toNat → s.acc &&& 0xFF000000#32 = 0#32 → (s.acc <<< 7) ||| g.setWidth 32 ≠ 0#32 →
      exec (.typeLast g) s = .next { s with
        pos := s.pos + 1#32, acc := 0#32, imgType := (s.acc <<< 7) ||| g.setWidth 32, errcode := 3#3
        phase := .error }) ∧
    (s.pos.toNat < s.inLen.toNat → s.acc &&& 0xFF000000#32 = 0#32 → (s.acc <<< 7) ||| g.setWidth 32 = 0#32 →
      exec (.typeLast g) s = .next { s with
        pos := s.pos + 1#32, acc := 0#32, imgType := 0#32, phase := .fix })

/-- 41_header.md R125: FIX_ZERO, its encoding and its effect. -/
def Obligations.FixZeroEntersWidth : Prop :=
  ∀ (s : State),
    decode (.step (stepWord .fix 0x00#8)) = .ok .fixZero ∧
    (s.inLen.toNat ≤ s.pos.toNat → exec .fixZero s = .next { s with errcode := 1#3, phase := .error }) ∧
    (s.pos.toNat < s.inLen.toNat → exec .fixZero s = .next { s with pos := s.pos + 1#32, phase := .width })

/-- 41_header.md R126, 30_encoding.md R75: every non-zero octet selects a row of FIX_NONZERO, and every such row rejects
the octet alike, POS past it. -/
def Obligations.FixNonzeroIsRejected : Prop :=
  (∀ o : Byte, o ≠ 0x00#8 → ∃ i, decode (.step (stepWord .fix o)) = .ok i ∧ isFixNonzeroRow i = true) ∧
  (∀ (s : State) (i : Instr), isFixNonzeroRow i = true →
    (s.inLen.toNat ≤ s.pos.toNat → exec i s = .next { s with errcode := 1#3, phase := .error }) ∧
    (s.pos.toNat < s.inLen.toNat →
      exec i s = .next { s with pos := s.pos + 1#32, errcode := 4#3, phase := .error }))

/-- 41_header.md R128, R130: WIDTH_LAST, its encoding; it writes the full value, unchecked. -/
def Obligations.WidthLastStoresTheValue : Prop :=
  ∀ (s : State) (g : BitVec 7),
    decode (.step (stepWord .width (0#1 ++ g : BitVec 8))) = .ok (.widthLast g) ∧
    (s.inLen.toNat ≤ s.pos.toNat → exec (.widthLast g) s = .next { s with errcode := 1#3, phase := .error }) ∧
    (s.pos.toNat < s.inLen.toNat → s.acc &&& 0xFF000000#32 ≠ 0#32 →
      exec (.widthLast g) s = .next { s with pos := s.pos + 1#32, errcode := 2#3, phase := .error }) ∧
    (s.pos.toNat < s.inLen.toNat → s.acc &&& 0xFF000000#32 = 0#32 →
      exec (.widthLast g) s = .next { s with
        pos := s.pos + 1#32, acc := 0#32, width := (s.acc <<< 7) ||| g.setWidth 32, phase := .height })

/-- 41_header.md R131, R133, R134: HEIGHT_LAST, its encoding; it writes the full value and makes the dimension check. -/
def Obligations.HeightLastChecksDimensions : Prop :=
  ∀ (s : State) (g : BitVec 7),
    decode (.step (stepWord .height (0#1 ++ g : BitVec 8))) = .ok (.heightLast g) ∧
    (s.inLen.toNat ≤ s.pos.toNat → exec (.heightLast g) s = .next { s with errcode := 1#3, phase := .error }) ∧
    (s.pos.toNat < s.inLen.toNat → s.acc &&& 0xFF000000#32 ≠ 0#32 →
      exec (.heightLast g) s = .next { s with pos := s.pos + 1#32, errcode := 2#3, phase := .error }) ∧
    (s.pos.toNat < s.inLen.toNat → s.acc &&& 0xFF000000#32 = 0#32 →
      dimLegal s.width ∧ dimLegal ((s.acc <<< 7) ||| g.setWidth 32) →
      exec (.heightLast g) s = .next { s with
        pos := s.pos + 1#32, acc := 0#32, height := (s.acc <<< 7) ||| g.setWidth 32, y := 0#16, xb := 0#16
        wptr := 0#34, phase := .rows }) ∧
    (s.pos.toNat < s.inLen.toNat → s.acc &&& 0xFF000000#32 = 0#32 →
      ¬(dimLegal s.width ∧ dimLegal ((s.acc <<< 7) ||| g.setWidth 32)) →
      exec (.heightLast g) s = .next { s with
        pos := s.pos + 1#32, acc := 0#32, height := (s.acc <<< 7) ||| g.setWidth 32, errcode := 5#3
        phase := .error })

/-- 41_header.md R135 item 3 and the header rows' frame: no header row changes a memory byte, IN_LEN, the platform or
a field of the host's; only the row that completes a field writes its register. -/
def Obligations.HeaderRowsFrame : Prop :=
  ∀ (s t : State) (i : Instr), isHeaderRow i = true → exec i s = .next t →
    (∀ a, t.output.read a = s.output.read a) ∧ (∀ a, t.input.read a = s.input.read a) ∧
    t.inLen = s.inLen ∧ t.platform = s.platform ∧ t.agenda = s.agenda ∧ t.rdata = s.rdata ∧ t.sync = s.sync ∧
    t.unseen = s.unseen ∧ t.draws = s.draws ∧
    ((∀ g, i ≠ .typeLast g) → t.imgType = s.imgType) ∧
    ((∀ g, i ≠ .widthLast g) → t.width = s.width) ∧
    ((∀ g, i ≠ .heightLast g) → t.height = s.height ∧ t.y = s.y ∧ t.xb = s.xb ∧ t.wptr = s.wptr)

/-- 30_encoding.md R72, R73, 40_bytecursor.md R101 to R104, 41_header.md R130: a width varint in the input, of any
length, is read as the number its groups denote when that is below 2^31, in one step for each octet; otherwise the
decode has failed with IntegerOverflow by then. -/
def Obligations.WidthVarintDenotesItsNumber : Prop :=
  ∀ (s : State) (gs : List (BitVec 7)), gs ≠ [] → s.runnable → s.agenda = [] → s.phase = .width →
    s.acc = 0#32 → s.pos.toNat + gs.length ≤ s.inLen.toNat → s.inputHolds s.pos.toNat (varintOctets gs) →
    (groupsValue gs < 2 ^ 31 →
      Sys2Proof.core.run gs.length s = .next { s with
        pos := s.pos + BitVec.ofNat 32 gs.length, width := BitVec.ofNat 32 (groupsValue gs), phase := .height }) ∧
    (2 ^ 31 ≤ groupsValue gs →
      ∃ t, Sys2Proof.core.run gs.length s = .next t ∧ t.phase = .error ∧ t.errcode = 2#3 ∧ t.width = s.width ∧
        s.pos.toNat < t.pos.toNat ∧ t.pos.toNat ≤ s.pos.toNat + gs.length)

/-! ### The bitmap -/

/-- 42_unpack.md R142, 30_encoding.md R79, 20_memory.md R53: a pixel write stores the bit's R, G, B, A bytes at four
rising addresses and no other byte. -/
def Obligations.PixelWriteStoresFourBytes : Prop :=
  ∀ (m : Memory) (a : OutAddr) (bit : Bool),
    (∀ c, c < 4 → (pixelWrite m a bit).read (a.toNat + c) = some (pixelByte bit c)) ∧
    (∀ b, b < a.toNat ∨ a.toNat + 4 ≤ b → (pixelWrite m a bit).read b = m.read b)

/-- 42_unpack.md R146: the active lanes are the first min(8, WIDTH − XB), and lane j writes the pixel of bit 7 − j at
WPTR + 4 j. -/
def Obligations.ActiveLanesAreAPrefix : Prop :=
  ∀ (s : State) (p : Byte),
    pixelWrites p s = (List.range (activeLanes s.width.toNat s.xb.toNat)).map
      fun j => (s.wptr + BitVec.ofNat 34 (4 * j), p.getLsbD (7 - j))

/-- 42_unpack.md R145: ROW_BYTE with no octet left. -/
def Obligations.RowByteRaisesTruncatedBitmap : Prop :=
  ∀ (s : State) (p : Byte), s.inLen.toNat ≤ s.pos.toNat →
    exec (.rowByte p) s = .next { s with errcode := 6#3, phase := .error }

/-- 42_unpack.md R141, R142: ROW_BYTE whose writes are admitted stores the pixel of every column of its octet that is
in the row, at the pixel's row-major address, and changes no other byte of either memory. -/
def Obligations.RowByteWritesItsPixels : Prop :=
  ∀ (s : State) (p : Byte), Sound s → s.phase = .rows → s.pos.toNat < s.inLen.toNat →
    s.wptr.toNat + 4 * activeLanes s.width.toNat s.xb.toNat ≤ s.platform.outCap →
    ∃ t, exec (.rowByte p) s = .next t ∧
      (∀ j c, j < 8 → s.xb.toNat + j < s.width.toNat → c < 4 →
        t.output.read (pixelAddress s.width.toNat s.y.toNat (s.xb.toNat + j) c) =
          some (pixelByte (p.getLsbD (7 - j)) c)) ∧
      (∀ a, a < s.wptr.toNat ∨ s.wptr.toNat + 4 * activeLanes s.width.toNat s.xb.toNat ≤ a →
        t.output.read a = s.output.read a) ∧
      (∀ a, t.input.read a = s.input.read a)

/-- 42_unpack.md R141, R143, R144: ROW_BYTE whose writes are admitted moves the cursor, the write position, the column
and the row, and ends in DONE with the last row; every other register and every field of the host's is kept. -/
def Obligations.RowByteAdvances : Prop :=
  ∀ (s : State) (p : Byte), Sound s → s.phase = .rows → s.pos.toNat < s.inLen.toNat →
    s.wptr.toNat + 4 * activeLanes s.width.toNat s.xb.toNat ≤ s.platform.outCap →
    ∃ t, exec (.rowByte p) s = .next t ∧
      t.pos = s.pos + 1#32 ∧
      t.wptr.toNat = s.wptr.toNat + 4 * activeLanes s.width.toNat s.xb.toNat ∧
      (s.xb.toNat + 8 < s.width.toNat →
        t.xb.toNat = s.xb.toNat + 8 ∧ t.y = s.y ∧ t.phase = .rows) ∧
      (s.width.toNat ≤ s.xb.toNat + 8 → t.xb = 0#16 ∧ t.y.toNat = s.y.toNat + 1 ∧
        (s.y.toNat + 1 < s.height.toNat → t.phase = .rows) ∧
        (s.y.toNat + 1 = s.height.toNat → t.phase = .done)) ∧
      t.acc = s.acc ∧ t.imgType = s.imgType ∧ t.width = s.width ∧ t.height = s.height ∧
      t.errcode = s.errcode ∧ t.inLen = s.inLen ∧ t.platform = s.platform ∧ t.agenda = s.agenda ∧
      t.rdata = s.rdata ∧ t.sync = s.sync ∧ t.unseen = s.unseen ∧ t.draws = s.draws

/-- 20_memory.md R54 and 70_reset_and_hazards.md R207 say that a ROW_BYTE with a pixel write that is not admitted does not
happen and that the block stays BUSY in the same state. That exec, and the block's turn with an empty agenda or listed,
then answer that state as a next state is the model's choice (log entry 12). -/
def Obligations.RowByteNotAdmittedIsStuck : Prop :=
  ∀ (s : State), Sound s → s.phase = .rows → s.pos.toNat < s.inLen.toNat →
    s.platform.outCap < s.wptr.toNat + 4 * activeLanes s.width.toNat s.xb.toNat →
    (∀ p, exec (.rowByte p) s = .next s) ∧ (s.runnable → s.agenda = [] → step s = .next s) ∧
    (s.runnable → ∀ rest, s.agenda = .block :: rest → step s = .next { s with agenda := rest })

/-- The frame of ROW_BYTE in every state (42_unpack.md R141): the bytes outside the four at each address `pixelWrites`
gives, and every register but POS, WPTR, XB, Y, PHASE and ERRCODE, are unchanged. -/
def Obligations.RowByteFrame : Prop :=
  ∀ (s t : State) (p : Byte), exec (.rowByte p) s = .next t →
    (∀ b, (∀ w ∈ pixelWrites p s, b < w.1.toNat ∨ w.1.toNat + 4 ≤ b) → t.output.read b = s.output.read b) ∧
    (∀ b, t.input.read b = s.input.read b) ∧
    t.acc = s.acc ∧ t.imgType = s.imgType ∧ t.width = s.width ∧ t.height = s.height ∧ t.inLen = s.inLen ∧
    t.platform = s.platform ∧ t.agenda = s.agenda ∧ t.rdata = s.rdata ∧ t.sync = s.sync ∧ t.unseen = s.unseen ∧
    t.draws = s.draws

/-- 30_encoding.md R77, 93_implementation_defined.md U14: the padding bits of an octet have no effect. -/
def Obligations.PaddingBitsHaveNoEffect : Prop :=
  ∀ (s : State) (p q : Byte),
    (∀ j, j < 8 → s.xb.toNat + j < s.width.toNat → p.getLsbD (7 - j) = q.getLsbD (7 - j)) →
    exec (.rowByte p) s = exec (.rowByte q) s

/-- 42_unpack.md R144, 93_implementation_defined.md U15: the end check never fails: a ROW_BYTE that has read its octet
raises nothing. -/
def Obligations.EndCheckNeverFails : Prop :=
  ∀ (s t : State) (p : Byte), s.phase ≠ .error → s.pos.toNat < s.inLen.toNat → exec (.rowByte p) s = .next t →
    t.phase ≠ .error ∧ t.errcode = s.errcode

/-- 42_unpack.md R147: from the entry to ROWS, with every packed octet in the input and room for the image, the block
takes HEIGHT × ceil(WIDTH/8) steps to DONE and leaves the image: every pixel is the one of its packed bit, no byte
outside the image changes, and the input is as before. -/
def Obligations.BitmapDecodesToTheImage : Prop :=
  ∀ (s : State), Sound s → s.runnable → s.agenda = [] → s.phase = .rows → s.y = 0#16 → s.xb = 0#16 →
    s.pos.toNat + s.height.toNat * rowStride s.width.toNat ≤ s.inLen.toNat →
    s.width.toNat * s.height.toNat * 4 ≤ s.platform.outCap →
    ∃ t, Sys2Proof.core.run (s.height.toNat * rowStride s.width.toNat) s = .next t ∧
      t.phase = .done ∧ t.errcode = 0#3 ∧ t.acc = 0#32 ∧ t.xb = 0#16 ∧ t.y.toNat = s.height.toNat ∧
      t.width = s.width ∧ t.height = s.height ∧
      t.pos.toNat = s.pos.toNat + s.height.toNat * rowStride s.width.toNat ∧
      t.wptr.toNat = s.width.toNat * s.height.toNat * 4 ∧
      (∀ y x c, y < s.height.toNat → x < s.width.toNat → c < 4 →
        t.output.read (pixelAddress s.width.toNat y x c) =
          some (pixelByte (packedBit s s.pos.toNat s.width.toNat y x) c)) ∧
      (∀ a, s.width.toNat * s.height.toNat * 4 ≤ a → t.output.read a = s.output.read a) ∧
      t.input = s.input

/-! ### Host commands -/

/-- 43_host.md R161: what a read of each offset returns; no register and no memory byte changes. That the value is found
in rdata (log entry 5) and that a read word may hold any data bits (log entry 15) is the model's choice. -/
def Obligations.ReadRegReturnsTheRegister : Prop :=
  ∀ (s : State) (off : BitVec 6) (data : Word), off.toNat % 4 = 0 →
    ∃ t, exec (.readReg off data) s = .next t ∧
      (off = 0x00#6 → t.rdata = 0#32) ∧
      (off = 0x04#6 → t.rdata.toNat = s.phase.bits.toNat * 16 + (if s.phase = .error then 4 else 0) +
        (if s.phase = .done then 2 else 0) +
        (if 1 ≤ s.phase.bits.toNat ∧ s.phase.bits.toNat ≤ 5 then 1 else 0)) ∧
      (off = 0x08#6 → t.rdata.toNat = s.errcode.toNat) ∧
      (off = 0x0C#6 → t.rdata = s.inLen) ∧
      (off = 0x10#6 → t.rdata = s.pos) ∧
      (off = 0x14#6 → t.rdata = s.imgType) ∧
      (off = 0x18#6 → t.rdata = s.width) ∧
      (off = 0x1C#6 → t.rdata = s.height) ∧
      (0x20 ≤ off.toNat → t.rdata = 0#32) ∧
      t.registers = s.registers ∧ t.input = s.input ∧ t.output = s.output ∧ t.platform = s.platform ∧
      t.agenda = s.agenda ∧ t.draws = s.draws

/-- 20_memory.md R61, R63, 70_reset_and_hazards.md R205: START takes the buffers from the host and leaves unordered what
was; of the reads only one of STATUS in DONE or ERROR gives the buffers back, and it orders every earlier write of the
block (the model's fields sync and unseen, log entries 6 and 18). -/
def Obligations.StatusReadEndsTheDecodeForTheHost : Prop :=
  (∀ (s : State) (ign : BitVec 31), s.busy = false → ∃ t, exec (.start ign) s = .next t ∧ t.sync = .pending ∧
    t.unorderedBelow = s.unorderedBelow) ∧
  (∀ (s : State) (off : BitVec 6) (data : Word), off.toNat % 4 = 0 →
    ∃ t, exec (.readReg off data) s = .next t ∧
      (off = 0x04#6 → s.phase = .done → t.sync = .owner ∧ t.unorderedBelow = 0) ∧
      (off = 0x04#6 → s.phase = .error → t.sync = .failed ∧ t.unorderedBelow = 0) ∧
      (off ≠ 0x04#6 ∨ (s.phase ≠ .done ∧ s.phase ≠ .error) →
        t.sync = s.sync ∧ t.unorderedBelow = s.unorderedBelow))

/-- 43_host.md R163: START when the block is not BUSY; IN_LEN and both memories are kept. -/
def Obligations.StartBeginsADecode : Prop :=
  ∀ (s : State) (ign : BitVec 31), s.phase = .idle ∨ s.phase = .done ∨ s.phase = .error →
    ∃ t, exec (.start ign) s = .next t ∧
      t.registers = { Registers.atReset with phase := .type, inLen := s.inLen } ∧ t.busy = true ∧
      t.done = false ∧ t.err = false ∧
      t.input = s.input ∧ t.output = s.output ∧ t.platform = s.platform ∧ t.agenda = s.agenda ∧
      t.rdata = s.rdata ∧ t.draws = s.draws

/-- 43_host.md R164: START while BUSY changes nothing, and nothing but the block's own turn and reset moves a register of
a running decode. -/
def Obligations.StartWhileBusyIsIgnored : Prop :=
  ∀ (s : State), s.busy = true →
    (∀ ign, exec (.start ign) s = .next s) ∧
    (∀ e rest t, s.agenda = e :: rest → e ≠ .block → e ≠ .reset → step s = .next t → t.registers = s.registers)

/-- 43_host.md R162: a write to CTRL with bit 0 = 0 has no effect, and bits 31:1 of any write to CTRL are ignored. -/
def Obligations.CtrlWriteZeroHasNoEffect : Prop :=
  ∀ (s : State) (ign ign' : BitVec 31),
    exec (.ctrlWriteZero ign) s = .next s ∧ exec (.start ign) s = exec (.start ign') s

/-- 43_host.md R165: writes to the read-only registers and to the reserved offsets change no state. -/
def Obligations.IgnoredWritesChangeNothing : Prop :=
  ∀ (s : State) (off : BitVec 6) (data : Word),
    exec (.writeIgnoredStatus data) s = .next s ∧ exec (.writeIgnoredErrcode data) s = .next s ∧
    exec (.writeIgnoredRo off data) s = .next s ∧ exec (.writeIgnoredRsvd off data) s = .next s

/-- 43_host.md R166, 10_state.md R31: WRITE_IN_LEN writes all 32 bits when the block is not BUSY and is ignored while it
is; no other instruction changes IN_LEN. -/
def Obligations.WriteInLenUnlessBusy : Prop :=
  (∀ (s : State) (data : Word),
    (s.busy = false → exec (.writeInLen data) s = .next { s with inLen := data }) ∧
    (s.busy = true → exec (.writeInLen data) s = .next s)) ∧
  (∀ (s t : State) (i : Instr), exec i s = .next t → (∀ data, i ≠ .writeInLen data) → t.inLen = s.inLen)

/-- 10_state.md R35, 43_host.md R163: two machines that agree on IN_LEN have the same registers after START, whatever
each did before. -/
def Obligations.StartForgetsEarlierDecodes : Prop :=
  ∀ (s s' t t' : State) (ign ign' : BitVec 31), s.busy = false → s'.busy = false → s.inLen = s'.inLen →
    exec (.start ign) s = .next t → exec (.start ign') s' = .next t' → t.registers = t'.registers

/-! ### The host and the memories -/

/-- 20_memory.md R61 item 1, R62, 70_reset_and_hazards.md R203, R205: a host write to the input space is what the block
reads later; while BUSY, and from START until STATUS has been read with DONE or ERR or reset has come, it is refused (`sync`
is the model's, log entry 6). That reset ends the refusal, although R205 asks for a STATUS read with BUSY = 0, is the
model's choice (log entry 11, DEDUCED). That the write is stored at every 32-bit address, also at or past IN_LEN, is the
model's choice (log entry 14, DEDUCED: R50 gives the space the addresses below IN_LEN, and R203 lets the host place the
octets before it writes IN_LEN). -/
def Obligations.HostInputWriteOrRefusal : Prop :=
  ∀ (s : State) (a : InAddr) (b : Byte) (rest : List HostEvent), s.runnable →
    s.agenda = .writeInput a b :: rest →
    (s.busy = true ∨ s.sync = .pending → step s = .refused .inputWriteDuringDecode) ∧
    (s.busy = false → s.sync ≠ .pending → ∃ t, step s = .next t ∧ t.inRead a.toNat = b ∧
      (∀ k, k ≠ a.toNat → t.input.read k = s.input.read k) ∧ t.output = s.output ∧
      t.registers = s.registers ∧ t.agenda = rest)

/-- 70_reset_and_hazards.md R206, 20_memory.md R50, R53, R63: a host write to a backed output byte is refused while BUSY;
outside it, the byte is stored where every write of the block to it is ordered before the host's, some byte is stored where
one is not (a free value, log entry 9), and no other byte changes (unorderedBelow is the model's, log entries 6 and 18). -/
def Obligations.HostOutputWriteOrRefusal : Prop :=
  ∀ (s : State) (a : OutAddr) (b : Byte) (rest : List HostEvent), s.runnable →
    s.agenda = .writeOutput a b :: rest → a.toNat < s.platform.outCap →
    (s.busy = true → step s = .refused .outputWriteWhileBusy) ∧
    (s.busy = false → ∃ t v, step s = .next t ∧
      t.output.read a.toNat = some v ∧ (s.unorderedBelow ≤ a.toNat → v = b) ∧
      (∀ k, k ≠ a.toNat → t.output.read k = s.output.read k) ∧
      t.input = s.input ∧ t.registers = s.registers)

/-- 20_memory.md R61 item 2, R53: a host read of an output byte made neither while BUSY nor after ERROR returns the byte the
space holds when every write of the block to it is ordered before the read: every byte after a read of STATUS that
returned DONE (`sync` is then owner), and without one every byte from unorderedBelow on (`sync`, unorderedBelow and rdata
are the model's, log entries 5, 6 and 18). -/
def Obligations.OutputReadAfterDoneIsExact : Prop :=
  ∀ (s : State) (a : OutAddr) (b : Byte) (rest : List HostEvent), s.runnable →
    s.agenda = .readOutput a :: rest → a.toNat < s.platform.outCap → s.phase = .idle ∨ s.phase = .done →
    s.output.read a.toNat = some b →
    (Sound s → s.sync = .owner → step s = .next { s with agenda := rest, rdata := b.setWidth 32 }) ∧
    (s.sync ≠ .failed → s.sync ≠ .failedUnread → s.unorderedBelow ≤ a.toNat →
      step s = .next { s with agenda := rest, rdata := b.setWidth 32 })

/-- 20_memory.md R61 item 3, 93_implementation_defined.md U4, U5: a host read of an output byte returns a free value,
whatever the space holds, and changes nothing else, while BUSY, in ERROR and after a reset from ERROR, and where a write of
the block to the byte may not be ordered before the read (rdata, draws, sync and unorderedBelow are the model's, log entries
5, 6, 7 and 18). -/
def Obligations.OutputReadBeforeDoneIsADraw : Prop :=
  ∀ (s : State) (a : OutAddr) (rest : List HostEvent) (m : Memory), s.runnable →
    s.agenda = .readOutput a :: rest → a.toNat < s.platform.outCap →
    s.busy = true ∨ s.phase = .error ∨ s.sync = .failed ∨ s.sync = .failedUnread ∨ a.toNat < s.unorderedBelow →
    ∃ v : Byte, step s = .next { s with agenda := rest, rdata := v.setWidth 32, draws := s.draws + 1 } ∧
      step { s with output := m } =
        .next { s with output := m, agenda := rest, rdata := v.setWidth 32, draws := s.draws + 1 }

/-- 20_memory.md R53, R61, R63: an output byte that a step changes otherwise than by a host write is one the block has
written, and from then on it lies below unorderedBelow, which no step lowers but a host read of STATUS in DONE or ERROR
(the model's, log entry 18). -/
def Obligations.UnorderedBytesCoverTheBlocksWrites : Prop :=
  ∀ (s t : State), Sound s → step s = .next t →
    (∀ a, t.output.read a ≠ s.output.read a → (∀ a' b rest, s.agenda ≠ .writeOutput a' b :: rest) →
      a < t.unorderedBelow) ∧
    ((∀ data rest, s.agenda ≠ .register false 0x04 4 data :: rest) ∨ (s.phase ≠ .done ∧ s.phase ≠ .error) →
      s.unorderedBelow ≤ t.unorderedBelow)

/-- 20_memory.md R50 gives the output space the addresses below OUT_CAP. That a host access to any other output address is
a fault is the model's choice (log entry 14, DEDUCED). -/
def Obligations.UnbackedOutputAccessFaults : Prop :=
  ∀ (s : State) (a : OutAddr) (b : Byte) (rest : List HostEvent), s.runnable →
    s.agenda = .readOutput a :: rest ∨ s.agenda = .writeOutput a b :: rest → s.platform.outCap ≤ a.toNat →
    step s = .fault .outputAddressUnbacked

/-! ### Reset -/

/-- 10_state.md R20, 70_reset_and_hazards.md R200, R201: the state after reset. -/
def Obligations.ResetStateIsIdle : Prop :=
  State.reset.registers = Registers.atReset ∧ statusWord State.reset = 0#32 ∧ State.reset.busy = false ∧
  State.reset.done = false ∧ State.reset.err = false

/-- 70_reset_and_hazards.md R200: reset at any time, BUSY or not, sets every register and changes no byte of either
memory (that it falls between two moves and keeps the agenda's rest is the model's, log entry 11). -/
def Obligations.ResetSetsEveryRegister : Prop :=
  ∀ (s : State) (rest : List HostEvent), s.runnable → s.agenda = .reset :: rest →
    ∃ t, step s = .next t ∧ t.registers = Registers.atReset ∧ (∀ a, t.input.read a = s.input.read a) ∧
      (∀ a, t.output.read a = s.output.read a) ∧ t.platform = s.platform ∧ t.agenda = rest

/-! ### Rules of the whole machine -/

/-- The invariant holds at reset. -/
def Obligations.ResetMeetsTheInvariant : Prop := Sound State.reset

/-- 10_state.md R23 to R29, 40_bytecursor.md R104, 41_header.md R134, 43_host.md R163: every step, of the block, of the host
or of the reset signal, keeps the invariant (its clauses on sync and unseen are about the model's fields, log entries 6
and 18). -/
def Obligations.StepKeepsTheInvariant : Prop :=
  ∀ s t : State, Sound s → step s = .next t → Sound t

/-- 10_state.md R21, 60_exceptions.md R185: phases IDLE, DONE and ERROR are left only by START or by reset. -/
def Obligations.OnlyStartAndResetLeaveRest : Prop :=
  ∀ (s t : State), s.phase = .idle ∨ s.phase = .done ∨ s.phase = .error → step s = .next t →
    t.phase ≠ s.phase →
    ∃ rest, s.agenda = .reset :: rest ∨
      ∃ data, s.agenda = .register true 0 4 data :: rest ∧ data.getLsbD 0 = true ∧ t.phase = .type

/-- 20_memory.md R51: only a host write changes the input space; every other step leaves every octet. -/
def Obligations.OnlyTheHostWritesTheInput : Prop :=
  ∀ (s t : State), step s = .next t → (∀ a b rest, s.agenda ≠ .writeInput a b :: rest) → t.input = s.input

/-- 10_state.md R31, 70_reset_and_hazards.md R204: while BUSY neither IN_LEN nor the input space changes, but for
reset. -/
def Obligations.BufferIsConstantDuringADecode : Prop :=
  ∀ (s t : State), s.busy = true → step s = .next t → (∀ rest, s.agenda ≠ .reset :: rest) →
    t.inLen = s.inLen ∧ t.input = s.input

/-- 10_state.md R22: in one step of a BUSY machine POS stays or advances by exactly 1, but for reset; it advances only
past an octet inside the buffer. -/
def Obligations.CursorOnlyAdvancesByOne : Prop :=
  ∀ (s t : State), s.busy = true → step s = .next t → (∀ rest, s.agenda ≠ .reset :: rest) →
    t.pos = s.pos ∨ (t.pos.toNat = s.pos.toNat + 1 ∧ s.pos.toNat < s.inLen.toNat)

/-- 20_memory.md R52, R51: the block's step depends on no input octet but the one at POS. -/
def Obligations.OtherInputOctetsHaveNoEffect : Prop :=
  ∀ (s t : State) (m : Memory), s.agenda = [] → m.read s.pos.toNat = s.input.read s.pos.toNat →
    step s = .next t → step { s with input := m } = .next { t with input := m }

/-- 20_memory.md R53: the block never reads the output space: what it holds moves no register. -/
def Obligations.OutputSpaceMovesNoRegister : Prop :=
  ∀ (s t : State) (m : Memory), s.agenda = [] → step s = .next t →
    ∃ t', step { s with output := m } = .next t' ∧ t'.registers = t.registers ∧ t'.input = t.input

/-- 20_memory.md R62, 43_host.md R167, 70_reset_and_hazards.md R205, R206: from a sound state on disjoint spaces, the
block's own step never stops, and the machine stops only where the host makes one of the accesses the spec refuses or that
no memory backs. That a resting or stuck block answers a next state is the model's choice (log entry 12), and so is the
fault of an access that no memory backs (log entry 14, DEDUCED from 20_memory.md R50). -/
def Obligations.OnlyNamedHostAccessesStop : Prop :=
  ∀ s : State, Sound s → s.spacesDisjoint = true →
    stepGoesOn s ∨
    (∃ a b rest, s.agenda = .writeInput a b :: rest ∧ (s.busy = true ∨ s.sync = .pending) ∧
      step s = .refused .inputWriteDuringDecode) ∨
    (∃ a b rest, s.agenda = .writeOutput a b :: rest ∧ s.busy = true ∧ step s = .refused .outputWriteWhileBusy) ∨
    (∃ a b rest, (s.agenda = .readOutput a :: rest ∨ s.agenda = .writeOutput a b :: rest) ∧
      s.platform.outCap ≤ a.toNat ∧ step s = .fault .outputAddressUnbacked) ∨
    (∃ wr offset bytes data rest, s.agenda = .register wr offset bytes data :: rest ∧
      ¬(bytes = 4 ∧ offset % 4 = 0 ∧ offset < 64) ∧ step s = .refused .badRegisterAccess)

/-- 60_exceptions.md R195, 70_reset_and_hazards.md R203 item 4: a decode the host leaves alone, on a platform that holds
every image, ends in DONE or ERROR after at most IN_LEN − POS + 1 steps. -/
def Obligations.EveryDecodeEnds : Prop :=
  ∀ s : State, Sound s → s.runnable → s.agenda = [] → s.busy = true → 17179344900 ≤ s.platform.outCap →
    ∃ k t, k ≤ s.inLen.toNat - s.pos.toNat + 1 ∧ Sys2Proof.core.run k s = .next t ∧
      (t.phase = .done ∨ t.phase = .error)
end

