-- ==== Sys2Proof/Laws/State.lean ====
section
/-! SUPPORT. One lemma for each field after each named update of the state, what the flags say of each phase, and what
makes a state in ROWS or in DONE sound. -/

namespace Sys2Proof.Machine

/-! ### raise -/

@[simp] theorem raise_phase (k : ErrKind) (s : State) : (raise k s).phase = .error := rfl
@[simp] theorem raise_pos (k : ErrKind) (s : State) : (raise k s).pos = s.pos := rfl
@[simp] theorem raise_acc (k : ErrKind) (s : State) : (raise k s).acc = s.acc := rfl
@[simp] theorem raise_imgType (k : ErrKind) (s : State) : (raise k s).imgType = s.imgType := rfl
@[simp] theorem raise_width (k : ErrKind) (s : State) : (raise k s).width = s.width := rfl
@[simp] theorem raise_height (k : ErrKind) (s : State) : (raise k s).height = s.height := rfl
@[simp] theorem raise_y (k : ErrKind) (s : State) : (raise k s).y = s.y := rfl
@[simp] theorem raise_xb (k : ErrKind) (s : State) : (raise k s).xb = s.xb := rfl
@[simp] theorem raise_wptr (k : ErrKind) (s : State) : (raise k s).wptr = s.wptr := rfl
@[simp] theorem raise_errcode (k : ErrKind) (s : State) : (raise k s).errcode = k.code := rfl
@[simp] theorem raise_inLen (k : ErrKind) (s : State) : (raise k s).inLen = s.inLen := rfl
@[simp] theorem raise_input (k : ErrKind) (s : State) : (raise k s).input = s.input := rfl
@[simp] theorem raise_output (k : ErrKind) (s : State) : (raise k s).output = s.output := rfl
@[simp] theorem raise_platform (k : ErrKind) (s : State) : (raise k s).platform = s.platform := rfl
@[simp] theorem raise_agenda (k : ErrKind) (s : State) : (raise k s).agenda = s.agenda := rfl
@[simp] theorem raise_rdata (k : ErrKind) (s : State) : (raise k s).rdata = s.rdata := rfl
@[simp] theorem raise_sync (k : ErrKind) (s : State) : (raise k s).sync = s.sync := rfl
@[simp] theorem raise_unseen (k : ErrKind) (s : State) : (raise k s).unseen = s.unseen := rfl
@[simp] theorem raise_draws (k : ErrKind) (s : State) : (raise k s).draws = s.draws := rfl

/-! ### startDecode -/

@[simp] theorem startDecode_phase (s : State) : (startDecode s).phase = .type := rfl
@[simp] theorem startDecode_pos (s : State) : (startDecode s).pos = 0#32 := rfl
@[simp] theorem startDecode_acc (s : State) : (startDecode s).acc = 0#32 := rfl
@[simp] theorem startDecode_imgType (s : State) : (startDecode s).imgType = 0#32 := rfl
@[simp] theorem startDecode_width (s : State) : (startDecode s).width = 0#32 := rfl
@[simp] theorem startDecode_height (s : State) : (startDecode s).height = 0#32 := rfl
@[simp] theorem startDecode_y (s : State) : (startDecode s).y = 0#16 := rfl
@[simp] theorem startDecode_xb (s : State) : (startDecode s).xb = 0#16 := rfl
@[simp] theorem startDecode_wptr (s : State) : (startDecode s).wptr = 0#34 := rfl
@[simp] theorem startDecode_errcode (s : State) : (startDecode s).errcode = 0#3 := rfl
@[simp] theorem startDecode_inLen (s : State) : (startDecode s).inLen = s.inLen := rfl
@[simp] theorem startDecode_input (s : State) : (startDecode s).input = s.input := rfl
@[simp] theorem startDecode_output (s : State) : (startDecode s).output = s.output := rfl
@[simp] theorem startDecode_platform (s : State) : (startDecode s).platform = s.platform := rfl
@[simp] theorem startDecode_agenda (s : State) : (startDecode s).agenda = s.agenda := rfl
@[simp] theorem startDecode_rdata (s : State) : (startDecode s).rdata = s.rdata := rfl
@[simp] theorem startDecode_sync (s : State) : (startDecode s).sync = .pending := rfl
@[simp] theorem startDecode_unseen (s : State) : (startDecode s).unseen = s.unorderedBelow := rfl
@[simp] theorem startDecode_draws (s : State) : (startDecode s).draws = s.draws := rfl

/-! ### resetBlock -/

@[simp] theorem resetBlock_phase (s : State) : (resetBlock s).phase = .idle := rfl
@[simp] theorem resetBlock_pos (s : State) : (resetBlock s).pos = 0#32 := rfl
@[simp] theorem resetBlock_acc (s : State) : (resetBlock s).acc = 0#32 := rfl
@[simp] theorem resetBlock_imgType (s : State) : (resetBlock s).imgType = 0#32 := rfl
@[simp] theorem resetBlock_width (s : State) : (resetBlock s).width = 0#32 := rfl
@[simp] theorem resetBlock_height (s : State) : (resetBlock s).height = 0#32 := rfl
@[simp] theorem resetBlock_y (s : State) : (resetBlock s).y = 0#16 := rfl
@[simp] theorem resetBlock_xb (s : State) : (resetBlock s).xb = 0#16 := rfl
@[simp] theorem resetBlock_wptr (s : State) : (resetBlock s).wptr = 0#34 := rfl
@[simp] theorem resetBlock_errcode (s : State) : (resetBlock s).errcode = 0#3 := rfl
@[simp] theorem resetBlock_inLen (s : State) : (resetBlock s).inLen = 0#32 := rfl
@[simp] theorem resetBlock_input (s : State) : (resetBlock s).input = s.input := rfl
@[simp] theorem resetBlock_output (s : State) : (resetBlock s).output = s.output := rfl
@[simp] theorem resetBlock_platform (s : State) : (resetBlock s).platform = s.platform := rfl
@[simp] theorem resetBlock_agenda (s : State) : (resetBlock s).agenda = s.agenda := rfl
@[simp] theorem resetBlock_rdata (s : State) : (resetBlock s).rdata = s.rdata := rfl
@[simp] theorem resetBlock_sync (s : State) : (resetBlock s).sync = syncAfterReset s := rfl
@[simp] theorem resetBlock_unseen (s : State) : (resetBlock s).unseen = s.unorderedBelow := rfl
@[simp] theorem resetBlock_draws (s : State) : (resetBlock s).draws = s.draws := rfl

/-! ### hostReadWord -/

@[simp] theorem hostReadWord_phase (off : BitVec 6) (s : State) : (hostReadWord off s).phase = s.phase := rfl
@[simp] theorem hostReadWord_pos (off : BitVec 6) (s : State) : (hostReadWord off s).pos = s.pos := rfl
@[simp] theorem hostReadWord_acc (off : BitVec 6) (s : State) : (hostReadWord off s).acc = s.acc := rfl
@[simp] theorem hostReadWord_imgType (off : BitVec 6) (s : State) : (hostReadWord off s).imgType = s.imgType := rfl
@[simp] theorem hostReadWord_width (off : BitVec 6) (s : State) : (hostReadWord off s).width = s.width := rfl
@[simp] theorem hostReadWord_height (off : BitVec 6) (s : State) : (hostReadWord off s).height = s.height := rfl
@[simp] theorem hostReadWord_y (off : BitVec 6) (s : State) : (hostReadWord off s).y = s.y := rfl
@[simp] theorem hostReadWord_xb (off : BitVec 6) (s : State) : (hostReadWord off s).xb = s.xb := rfl
@[simp] theorem hostReadWord_wptr (off : BitVec 6) (s : State) : (hostReadWord off s).wptr = s.wptr := rfl
@[simp] theorem hostReadWord_errcode (off : BitVec 6) (s : State) : (hostReadWord off s).errcode = s.errcode := rfl
@[simp] theorem hostReadWord_inLen (off : BitVec 6) (s : State) : (hostReadWord off s).inLen = s.inLen := rfl
@[simp] theorem hostReadWord_input (off : BitVec 6) (s : State) : (hostReadWord off s).input = s.input := rfl
@[simp] theorem hostReadWord_output (off : BitVec 6) (s : State) : (hostReadWord off s).output = s.output := rfl
@[simp] theorem hostReadWord_platform (off : BitVec 6) (s : State) : (hostReadWord off s).platform = s.platform := rfl
@[simp] theorem hostReadWord_agenda (off : BitVec 6) (s : State) : (hostReadWord off s).agenda = s.agenda := rfl
@[simp] theorem hostReadWord_rdata (off : BitVec 6) (s : State) : (hostReadWord off s).rdata = windowWord s off := rfl
@[simp] theorem hostReadWord_sync (off : BitVec 6) (s : State) : (hostReadWord off s).sync = if off = statusOffset then syncAfterStatus s else s.sync := rfl
@[simp] theorem hostReadWord_unseen (off : BitVec 6) (s : State) : (hostReadWord off s).unseen = if off = statusOffset then unseenAfterStatus s else s.unseen := rfl
@[simp] theorem hostReadWord_draws (off : BitVec 6) (s : State) : (hostReadWord off s).draws = s.draws := rfl

/-! ### afterDraw -/

@[simp] theorem afterDraw_phase (s : State) : (afterDraw s).phase = s.phase := rfl
@[simp] theorem afterDraw_pos (s : State) : (afterDraw s).pos = s.pos := rfl
@[simp] theorem afterDraw_acc (s : State) : (afterDraw s).acc = s.acc := rfl
@[simp] theorem afterDraw_imgType (s : State) : (afterDraw s).imgType = s.imgType := rfl
@[simp] theorem afterDraw_width (s : State) : (afterDraw s).width = s.width := rfl
@[simp] theorem afterDraw_height (s : State) : (afterDraw s).height = s.height := rfl
@[simp] theorem afterDraw_y (s : State) : (afterDraw s).y = s.y := rfl
@[simp] theorem afterDraw_xb (s : State) : (afterDraw s).xb = s.xb := rfl
@[simp] theorem afterDraw_wptr (s : State) : (afterDraw s).wptr = s.wptr := rfl
@[simp] theorem afterDraw_errcode (s : State) : (afterDraw s).errcode = s.errcode := rfl
@[simp] theorem afterDraw_inLen (s : State) : (afterDraw s).inLen = s.inLen := rfl
@[simp] theorem afterDraw_input (s : State) : (afterDraw s).input = s.input := rfl
@[simp] theorem afterDraw_output (s : State) : (afterDraw s).output = s.output := rfl
@[simp] theorem afterDraw_platform (s : State) : (afterDraw s).platform = s.platform := rfl
@[simp] theorem afterDraw_agenda (s : State) : (afterDraw s).agenda = s.agenda := rfl
@[simp] theorem afterDraw_rdata (s : State) : (afterDraw s).rdata = s.rdata := rfl
@[simp] theorem afterDraw_sync (s : State) : (afterDraw s).sync = s.sync := rfl
@[simp] theorem afterDraw_unseen (s : State) : (afterDraw s).unseen = s.unseen := rfl
@[simp] theorem afterDraw_draws (s : State) : (afterDraw s).draws = s.draws + 1 := rfl

/-! ### writePixels -/

@[simp] theorem writePixels_phase (ws : List (OutAddr × Bool)) (s : State) : (writePixels ws s).phase = s.phase := rfl
@[simp] theorem writePixels_pos (ws : List (OutAddr × Bool)) (s : State) : (writePixels ws s).pos = s.pos := rfl
@[simp] theorem writePixels_acc (ws : List (OutAddr × Bool)) (s : State) : (writePixels ws s).acc = s.acc := rfl
@[simp] theorem writePixels_imgType (ws : List (OutAddr × Bool)) (s : State) : (writePixels ws s).imgType = s.imgType := rfl
@[simp] theorem writePixels_width (ws : List (OutAddr × Bool)) (s : State) : (writePixels ws s).width = s.width := rfl
@[simp] theorem writePixels_height (ws : List (OutAddr × Bool)) (s : State) : (writePixels ws s).height = s.height := rfl
@[simp] theorem writePixels_y (ws : List (OutAddr × Bool)) (s : State) : (writePixels ws s).y = s.y := rfl
@[simp] theorem writePixels_xb (ws : List (OutAddr × Bool)) (s : State) : (writePixels ws s).xb = s.xb := rfl
@[simp] theorem writePixels_wptr (ws : List (OutAddr × Bool)) (s : State) : (writePixels ws s).wptr = s.wptr + BitVec.ofNat 34 (4 * ws.length) := rfl
@[simp] theorem writePixels_errcode (ws : List (OutAddr × Bool)) (s : State) : (writePixels ws s).errcode = s.errcode := rfl
@[simp] theorem writePixels_inLen (ws : List (OutAddr × Bool)) (s : State) : (writePixels ws s).inLen = s.inLen := rfl
@[simp] theorem writePixels_input (ws : List (OutAddr × Bool)) (s : State) : (writePixels ws s).input = s.input := rfl
@[simp] theorem writePixels_output (ws : List (OutAddr × Bool)) (s : State) : (writePixels ws s).output = ws.foldl (fun m w => pixelWrite m w.1 w.2) s.output := rfl
@[simp] theorem writePixels_platform (ws : List (OutAddr × Bool)) (s : State) : (writePixels ws s).platform = s.platform := rfl
@[simp] theorem writePixels_agenda (ws : List (OutAddr × Bool)) (s : State) : (writePixels ws s).agenda = s.agenda := rfl
@[simp] theorem writePixels_rdata (ws : List (OutAddr × Bool)) (s : State) : (writePixels ws s).rdata = s.rdata := rfl
@[simp] theorem writePixels_sync (ws : List (OutAddr × Bool)) (s : State) : (writePixels ws s).sync = s.sync := rfl
@[simp] theorem writePixels_unseen (ws : List (OutAddr × Bool)) (s : State) : (writePixels ws s).unseen = s.unseen := rfl
@[simp] theorem writePixels_draws (ws : List (OutAddr × Bool)) (s : State) : (writePixels ws s).draws = s.draws := rfl

/-! ### Flags -/

theorem busy_iff_bits (s : State) : s.busy = true ↔ 1 ≤ s.phase.bits.toNat ∧ s.phase.bits.toNat ≤ 5 := by
  cases h : s.phase <;> simp [State.busy, phaseBusy, Phase.bits, h]

theorem resting_not_busy {s : State} (h : s.phase = .idle ∨ s.phase = .done ∨ s.phase = .error) :
    s.busy = false := by
  rcases h with h | h | h <;> simp [State.busy, phaseBusy, h]

theorem resting_of_not_busy {s : State} (h : s.busy = false) :
    s.phase = .idle ∨ s.phase = .done ∨ s.phase = .error := by
  revert h
  cases h : s.phase <;> simp [State.busy, phaseBusy, h]

theorem eofKind_none_iff (ph : Phase) : eofKind ph = none ↔ phaseBusy ph = false := by
  cases ph <;> simp [eofKind, phaseBusy]

@[simp] theorem ofBits_bits (ph : Phase) : Phase.ofBits ph.bits = ph := by cases ph <;> rfl

theorem code_ne_zero (k : ErrKind) : k.code ≠ 0#3 := by cases k <;> decide

theorem code_ne_seven (k : ErrKind) : k.code ≠ 7#3 := by cases k <;> decide

/-! ### What the host knows of the output -/

/-- START and reset leave unordered what was unordered before. -/
@[simp] theorem startDecode_unorderedBelow (s : State) : (startDecode s).unorderedBelow = s.unorderedBelow := by
  simp [State.unorderedBelow]

@[simp] theorem resetBlock_unorderedBelow (s : State) : (resetBlock s).unorderedBelow = s.unorderedBelow := by
  have h : syncAfterReset s ≠ .pending := by
    unfold syncAfterReset
    split <;> simp
    split <;> simp
  rw [State.unorderedBelow, resetBlock_sync, if_neg h, resetBlock_unseen]

/-- A read of STATUS in DONE or ERROR orders everything the block has written. -/
theorem hostReadWord_ordered {s : State} (h : s.phase = .done ∨ s.phase = .error) :
    (hostReadWord statusOffset s).unorderedBelow = 0 := by
  rcases h with h | h <;>
    simp [State.unorderedBelow, syncAfterStatus, unseenAfterStatus, State.done, State.err, h]

/-- Any other read of the window leaves unordered what was unordered before. -/
theorem hostReadWord_unordered {s : State} {off : BitVec 6}
    (h : off ≠ statusOffset ∨ (s.phase ≠ .done ∧ s.phase ≠ .error)) :
    (hostReadWord off s).sync = s.sync ∧ (hostReadWord off s).unorderedBelow = s.unorderedBelow := by
  by_cases ho : off = statusOffset
  · have hp : s.phase ≠ .done ∧ s.phase ≠ .error := h.resolve_left (absurd ho)
    have hs : syncAfterStatus s = s.sync := by
      unfold syncAfterStatus
      cases hph : s.phase <;> simp_all
    simp [State.unorderedBelow, unseenAfterStatus, State.done, State.err, ho, hs, hp]
  · simp [State.unorderedBelow, ho]

/-! ### Sound states of the bitmap -/

/-- A memory in canonical form whose listed addresses all lie below `bound`. -/
abbrev Memory.within (m : Memory) (bound : Nat) : Prop := m.wf ∧ ∀ c ∈ m, c.1 < bound

/-- What 41_header.md R135 item 2 and 10_state.md R23 to R28 ask of a state in ROWS makes it sound. -/
theorem sound_of_rows {s : State} (hp : s.phase = .rows)
    (hz : s.acc = 0#32 ∧ s.imgType = 0#32 ∧ s.errcode = 0#3 ∧ s.sync = .pending)
    (hm : s.input.within (2 ^ 32) ∧ s.output.within s.platform.outCap) (hpos : s.pos.toNat ≤ s.inLen.toNat)
    (hd : dimLegal s.width ∧ dimLegal s.height)
    (hat : s.y.toNat < s.height.toNat ∧ s.xb.toNat % 8 = 0 ∧ s.xb.toNat < s.width.toNat ∧
      s.wptr.toNat = (s.y.toNat * s.width.toNat + s.xb.toNat) * 4) : Sound s where
  input_wf := hm.1.1
  output_wf := hm.2.1
  input_addr := hm.1.2
  output_addr := hm.2.2
  pos_le _ := hpos
  acc_lt := by simp [hz]
  acc_zero _ := hz.1
  imgType_lt := by simp [hz]
  width_lt := by have := hd.1.2; omega
  height_lt := by have := hd.2.2; omega
  err_iff := by simp [hz, hp]
  err_legal := by simp [hz]
  type_zero _ := hz.2.1
  dims _ := hd
  rows_at _ := hat
  done_at h := by rw [hp] at h; cases h
  header_at h := by rw [hp] at h; cases h
  seen_all h := by rw [hz.2.2.2] at h; simp at h
  sync_busy _ := hz.2.2.2

/-- What 42_unpack.md R147 item 4 and 10_state.md R25 ask of a state in DONE makes it sound. -/
theorem sound_of_done {s : State} (hp : s.phase = .done)
    (hz : s.acc = 0#32 ∧ s.imgType = 0#32 ∧ s.errcode = 0#3) (hu : s.unseen = 0)
    (hm : s.input.within (2 ^ 32) ∧ s.output.within s.platform.outCap)
    (hd : dimLegal s.width ∧ dimLegal s.height)
    (hat : s.y.toNat = s.height.toNat ∧ s.xb = 0#16 ∧ s.wptr.toNat = s.width.toNat * s.height.toNat * 4) :
    Sound s where
  input_wf := hm.1.1
  output_wf := hm.2.1
  input_addr := hm.1.2
  output_addr := hm.2.2
  pos_le h := by simp [State.busy, phaseBusy, hp] at h
  acc_lt := by simp [hz]
  acc_zero _ := hz.1
  imgType_lt := by simp [hz]
  width_lt := by have := hd.1.2; omega
  height_lt := by have := hd.2.2; omega
  err_iff := by simp [hz, hp]
  err_legal := by simp [hz]
  type_zero _ := hz.2.1
  dims _ := hd
  rows_at h := by rw [hp] at h; cases h
  done_at _ := hat
  header_at h := by rw [hp] at h; cases h
  seen_all _ := hu
  sync_busy h := by simp [State.busy, phaseBusy, hp] at h

end Sys2Proof.Machine
end

