-- ==== Sys2Proof/Laws/Decode.lean ====
section
/-! SUPPORT. The decoder taken apart: a STEP word is its phase and its octet, a HOST word is its three fields, and what
each selects. -/

namespace Sys2Proof.Machine

@[simp] theorem bits_ofBits (b : BitVec 3) : (Phase.ofBits b).bits = b := by
  revert b; decide

theorem stepWord_getLsbD (ph : Phase) (o : Byte) (i : Nat) :
    (stepWord ph o).getLsbD i = if i < 8 then o.getLsbD i else ph.bits.getLsbD (i - 8) :=
  BitVec.getLsbD_append (x := ph.bits) (y := o)

theorem hostWord_getLsbD (wr : Bool) (off : BitVec 6) (data : Word) (i : Nat) :
    (hostWord wr off data).getLsbD i =
      if i < 32 then data.getLsbD i
      else if i - 32 < 6 then off.getLsbD (i - 32) else (BitVec.ofBool wr).getLsbD (i - 32 - 6) := by
  rw [← BitVec.getLsbD_append (x := BitVec.ofBool wr) (y := off)]
  exact BitVec.getLsbD_append (x := BitVec.ofBool wr ++ off) (y := data)

theorem stepWord_phase (ph : Phase) (o : Byte) : (stepWord ph o).extractLsb' 8 3 = ph.bits := by
  apply BitVec.eq_of_getLsbD_eq
  intro i hi
  simp only [BitVec.getLsbD_extractLsb', stepWord_getLsbD, hi, decide_true, Bool.true_and]
  rw [if_neg (by omega), Nat.add_sub_cancel_left]

theorem stepWord_octet (ph : Phase) (o : Byte) : (stepWord ph o).extractLsb' 0 8 = o := by
  apply BitVec.eq_of_getLsbD_eq
  intro i hi
  simp [stepWord_getLsbD, hi]

theorem stepWord_eta (w : BitVec 11) : stepWord (Phase.ofBits (w.extractLsb' 8 3)) (w.extractLsb' 0 8) = w := by
  apply BitVec.eq_of_getLsbD_eq
  intro i hi
  simp only [stepWord_getLsbD, bits_ofBits, BitVec.getLsbD_extractLsb']
  split
  · simp [*]
  · rw [show 8 + (i - 8) = i by omega, decide_eq_true (show i - 8 < 3 by omega), Bool.true_and]

theorem hostWord_wr (wr : Bool) (off : BitVec 6) (data : Word) : (hostWord wr off data).getLsbD 38 = wr := by
  rw [hostWord_getLsbD]
  cases wr <;> rfl

theorem hostWord_off (wr : Bool) (off : BitVec 6) (data : Word) : (hostWord wr off data).extractLsb' 32 6 = off := by
  apply BitVec.eq_of_getLsbD_eq
  intro i hi
  simp only [BitVec.getLsbD_extractLsb', hostWord_getLsbD, hi, decide_true, Bool.true_and]
  rw [if_neg (by omega), Nat.add_sub_cancel_left, if_pos hi]

theorem hostWord_data (wr : Bool) (off : BitVec 6) (data : Word) :
    (hostWord wr off data).extractLsb' 0 32 = data := by
  apply BitVec.eq_of_getLsbD_eq
  intro i hi
  simp [hostWord_getLsbD, hi]

theorem hostWord_eta (w : BitVec 39) :
    hostWord (w.getLsbD 38) (w.extractLsb' 32 6) (w.extractLsb' 0 32) = w := by
  apply BitVec.eq_of_getLsbD_eq
  intro i hi
  rw [hostWord_getLsbD]
  by_cases h : i < 32
  · simp [h]
  · by_cases h6 : i - 32 < 6
    · rw [if_neg h, if_pos h6, BitVec.getLsbD_extractLsb', decide_eq_true h6, Bool.true_and,
        show 32 + (i - 32) = i by omega]
    · have h38 : i = 38 := by omega
      subst h38
      cases w.getLsbD 38 <;> rfl

theorem decode_stepWord (ph : Phase) (o : Byte) : decode (.step (stepWord ph o)) = decodeOctet ph o := by
  simp only [decode, stepWord_phase, stepWord_octet, ofBits_bits]

theorem decode_hostWord (wr : Bool) (off : BitVec 6) (data : Word) :
    decode (.host (hostWord wr off data)) = decodeAccess wr off data := by
  simp only [decode, hostWord_wr, hostWord_off, hostWord_data]

theorem offsetAligned_iff (off : BitVec 6) : offsetAligned off = true ↔ off.toNat % 4 = 0 := by
  revert off; decide

/-- What a STEP word decodes to is a header row or ROW_BYTE, and its phase is 1 to 5. -/
theorem decodeOctet_ok {ph : Phase} {o : Byte} {i : Instr} (h : decodeOctet ph o = .ok i) : phaseBusy ph = true := by
  cases ph <;> simp_all [decodeOctet, phaseBusy]

/-- A BUSY phase decodes every octet. -/
theorem decodeOctet_busy {ph : Phase} (h : phaseBusy ph = true) (o : Byte) : ∃ i, decodeOctet ph o = .ok i := by
  cases ph <;> simp_all [decodeOctet, phaseBusy]

/-- A FIX octet that is not 0 is one of the eight FIX_NONZERO rows. -/
theorem decodeFix_cases (o : Byte) : decodeFix o = .fixZero ∨ isFixNonzeroRow (decodeFix o) = true := by
  unfold decodeFix
  repeat' split
  all_goals simp [isFixNonzeroRow]

theorem isHeaderRow_of_isFixNonzeroRow {i : Instr} (h : isFixNonzeroRow i = true) : isHeaderRow i = true := by
  cases i <;> simp_all [isFixNonzeroRow, isHeaderRow]

end Sys2Proof.Machine
end

