-- ==== Sys2Proof/Laws/Memory.lean ====
section
/-! SUPPORT. The laws of memory: a read after a write, the canonical form kept, the addresses a memory lists. -/

namespace Sys2Proof.Machine

theorem read_write_same (m : Memory) (k : Nat) (v : Byte) : (m.write k v).read k = some v := by
  induction m with
  | nil => simp [Memory.write, Memory.read]
  | cons c m ih =>
    obtain ⟨a, b⟩ := c
    simp only [Memory.write]
    split
    · simp [Memory.read]
    · split
      · simp [Memory.read]
      · rename_i h1 h2
        simp [Memory.read, ih, Ne.symm h2]

theorem read_write_other (m : Memory) {k j : Nat} (v : Byte) (h : j ≠ k) : (m.write k v).read j = m.read j := by
  induction m with
  | nil => simp [Memory.write, Memory.read, Ne.symm h]
  | cons c m ih =>
    obtain ⟨a, b⟩ := c
    simp only [Memory.write]
    split
    · simp [Memory.read, Ne.symm h]
    · split
      · rename_i h1 h2
        simp [Memory.read, ← h2, Ne.symm h]
      · simp only [Memory.read, ih]

theorem read_write (m : Memory) (k j : Nat) (v : Byte) :
    (m.write k v).read j = if j = k then some v else m.read j := by
  split
  · subst j; exact read_write_same m k v
  · exact read_write_other m v ‹_›

theorem mem_write {m : Memory} {k : Nat} {v : Byte} {c : Host.Cell} (h : c ∈ m.write k v) :
    c = (k, v) ∨ c ∈ m := by
  induction m with
  | nil => simpa [Memory.write] using h
  | cons d m ih =>
    obtain ⟨a, b⟩ := d
    simp only [Memory.write] at h
    split at h
    · simpa using h
    · split at h
      · simp only [List.mem_cons] at h ⊢
        tauto
      · simp only [List.mem_cons] at h ⊢
        rcases h with h | h
        · exact .inr (.inl h)
        · exact (ih h).imp_right .inr

theorem write_wf {m : Memory} (h : m.wf) (k : Nat) (v : Byte) : (m.write k v).wf := by
  induction m with
  | nil => simp [Memory.write, Memory.wf]
  | cons c m ih =>
    obtain ⟨a, b⟩ := c
    have h' := List.pairwise_cons.mp h
    simp only [Memory.write]
    split
    · refine List.pairwise_cons.mpr ⟨?_, h⟩
      intro d hd
      rcases List.mem_cons.mp hd with rfl | hd
      · assumption
      · exact Nat.lt_trans ‹_› (h'.1 d hd)
    · split
      · subst k
        exact List.pairwise_cons.mpr h'
      · refine List.pairwise_cons.mpr ⟨?_, ih h'.2⟩
        intro d hd
        rcases mem_write hd with rfl | hd
        · show a < k
          omega
        · exact h'.1 d hd

theorem write_addr {m : Memory} {bound k : Nat} (h : ∀ c ∈ m, c.1 < bound) (hk : k < bound) (v : Byte) :
    ∀ c ∈ m.write k v, c.1 < bound := by
  intro c hc
  rcases mem_write hc with rfl | hc
  · exact hk
  · exact h c hc

theorem writeBytes_read (m : Memory) (a k : Nat) (vs : List Byte) :
    (m.writeBytes a vs).read k = if a ≤ k ∧ k < a + vs.length then vs[k - a]? else m.read k := by
  induction vs generalizing m a with
  | nil =>
    have : ¬(a ≤ k ∧ k < a) := by omega
    simp [Memory.writeBytes, this]
  | cons v vs ih =>
    simp only [Memory.writeBytes, ih, read_write, List.length_cons]
    by_cases h1 : k = a
    · subst k
      simp
    · by_cases h2 : a + 1 ≤ k ∧ k < a + 1 + vs.length
      · have h3 : a ≤ k ∧ k < a + (vs.length + 1) := by omega
        have h4 : k - a = (k - (a + 1)) + 1 := by omega
        rw [if_pos h2, if_pos h3, h4, List.getElem?_cons_succ]
      · have h3 : ¬(a ≤ k ∧ k < a + (vs.length + 1)) := by omega
        rw [if_neg h2, if_neg h3, if_neg h1]

theorem writeBytes_wf {m : Memory} (h : m.wf) (a : Nat) (vs : List Byte) : (m.writeBytes a vs).wf := by
  induction vs generalizing m a with
  | nil => exact h
  | cons v vs ih => exact ih (write_wf h a v) _

theorem writeBytes_addr {m : Memory} {bound a : Nat} (vs : List Byte) (h : ∀ c ∈ m, c.1 < bound)
    (ha : a + vs.length ≤ bound) : ∀ c ∈ m.writeBytes a vs, c.1 < bound := by
  induction vs generalizing m a with
  | nil => exact h
  | cons v vs ih =>
    simp only [List.length_cons] at ha
    exact ih (write_addr h (by omega) v) (by omega)

@[simp] theorem pixelBytes_length (bit : Bool) : (pixelBytes bit).length = 4 := by cases bit <;> rfl

theorem pixelBytes_getElem? (bit : Bool) (c : Nat) :
    (pixelBytes bit)[c]? = if c < 4 then some (pixelByte bit c) else none := by
  match c with
  | 0 | 1 | 2 | 3 => cases bit <;> rfl
  | c + 4 => cases bit <;> simp [pixelBytes]

/-- What a byte reads as after one pixel write. -/
theorem pixelWrite_read (m : Memory) (a : OutAddr) (bit : Bool) (k : Nat) :
    (pixelWrite m a bit).read k =
      if a.toNat ≤ k ∧ k < a.toNat + 4 then some (pixelByte bit (k - a.toNat)) else m.read k := by
  simp only [pixelWrite, writeBytes_read, pixelBytes_length, pixelBytes_getElem?]
  split
  · rw [if_pos (by omega)]
  · rfl

/-- The pixel writes of one step, in order. -/
def pixelFold (ws : List (OutAddr × Bool)) (m : Memory) : Memory := ws.foldl (fun m w => pixelWrite m w.1 w.2) m

theorem pixelFold_other (ws : List (OutAddr × Bool)) (m : Memory) (k : Nat)
    (h : ∀ w ∈ ws, k < w.1.toNat ∨ w.1.toNat + 4 ≤ k) : (pixelFold ws m).read k = m.read k := by
  induction ws generalizing m with
  | nil => rfl
  | cons w ws ih =>
    have hw := h w (by simp)
    have := ih (pixelWrite m w.1 w.2) fun x hx => h x (by simp [hx])
    simp only [pixelFold, List.foldl_cons] at this ⊢
    rw [this, pixelWrite_read, if_neg (by omega)]

theorem pixelFold_wf (ws : List (OutAddr × Bool)) {m : Memory} (h : m.wf) : (pixelFold ws m).wf := by
  induction ws generalizing m with
  | nil => exact h
  | cons w ws ih => exact ih (writeBytes_wf h _ _)

theorem pixelFold_addr (ws : List (OutAddr × Bool)) {m : Memory} {cap : Nat} (h : ∀ c ∈ m, c.1 < cap)
    (hw : admitted cap ws = true) : ∀ c ∈ pixelFold ws m, c.1 < cap := by
  induction ws generalizing m with
  | nil => exact h
  | cons w ws ih =>
    simp only [admitted, List.all_cons, Bool.and_eq_true, decide_eq_true_eq] at hw
    exact ih (writeBytes_addr _ h (by simp; omega)) hw.2

end Sys2Proof.Machine
end

