-- ==== Sys2Proof/Laws/Ops.lean ====
section
/-! SUPPORT. One lemma for each shared operation, saying once everything it can do. -/

namespace Sys2Proof.Machine

/-- The octet read: either the end of the input, or the continuation past the octet. -/
theorem withOctet_cases (eof : ErrKind) (s : State) (k : State → State) :
    (s.inLen.toNat ≤ s.pos.toNat ∧ withOctet eof s k = raise eof s) ∨
    (s.pos.toNat < s.inLen.toNat ∧ withOctet eof s k = k { s with pos := s.pos + 1#32 }) := by
  by_cases h : s.inLen ≤ s.pos
  · exact .inl ⟨h, if_pos h⟩
  · exact .inr ⟨BitVec.not_le.mp h, if_neg h⟩

theorem withOctet_end (eof : ErrKind) {s : State} (k : State → State) (h : s.inLen.toNat ≤ s.pos.toNat) :
    withOctet eof s k = raise eof s := if_pos h

theorem withOctet_octet (eof : ErrKind) {s : State} (k : State → State) (h : s.pos.toNat < s.inLen.toNat) :
    withOctet eof s k = k { s with pos := s.pos + 1#32 } :=
  if_neg fun h' => absurd (show s.inLen.toNat ≤ s.pos.toNat from h') (Nat.not_le.mpr h)

/-- The cursor never wraps when an octet is read (10_state.md R23). -/
theorem pos_succ {s : State} (h : s.pos.toNat < s.inLen.toNat) : (s.pos + 1#32).toNat = s.pos.toNat + 1 := by
  have := s.inLen.isLt
  simp only [BitVec.toNat_add, BitVec.toNat_ofNat]
  omega

/-- The varint step: end of input, guard, or the continuation with the new accumulator. -/
theorem withGroup_cases (g : BitVec 7) (s : State) (k : Word → State → State) :
    (s.inLen.toNat ≤ s.pos.toNat ∧ withGroup g s k = raise .outOfBounds s) ∨
    (s.pos.toNat < s.inLen.toNat ∧ guardFires s.acc = true ∧
      withGroup g s k = raise .integerOverflow { s with pos := s.pos + 1#32 }) ∨
    (s.pos.toNat < s.inLen.toNat ∧ guardFires s.acc = false ∧
      withGroup g s k = k (accumulate s.acc g) { s with pos := s.pos + 1#32 }) := by
  unfold withGroup
  rcases withOctet_cases .outOfBounds s fun s1 =>
    if guardFires s1.acc then raise .integerOverflow s1 else k (accumulate s1.acc g) s1 with ⟨h, e⟩ | ⟨h, e⟩
  · exact .inl ⟨h, e⟩
  · rw [e]
    cases hg : guardFires s.acc
    · exact .inr (.inr ⟨h, rfl, by simp⟩)
    · exact .inr (.inl ⟨h, rfl, by simp⟩)

theorem guardFires_iff (acc : Word) : guardFires acc = true ↔ acc &&& 0xFF000000#32 ≠ 0#32 := by
  simp [guardFires, accGuardMask]

/-- The dimension check (41_header.md R134). -/
theorem dimInRange_iff (d : Word) : dimInRange d = true ↔ dimLegal d := by
  simp [dimInRange, dimLegal, minDim, maxDim, BitVec.le_def]

theorem dimensionCheck_legal {w h : Word} (s : State) (hl : dimLegal w ∧ dimLegal h) :
    dimensionCheck w h s = { s with y := 0#16, xb := 0#16, wptr := 0#34, phase := .rows } := by
  simp [dimensionCheck, (dimInRange_iff w).mpr hl.1, (dimInRange_iff h).mpr hl.2]

theorem dimensionCheck_illegal {w h : Word} (s : State) (hl : ¬(dimLegal w ∧ dimLegal h)) :
    dimensionCheck w h s = raise .invalidDimensions s := by
  rw [← dimInRange_iff, ← dimInRange_iff] at hl
  simp only [dimensionCheck, Bool.and_eq_true, if_neg hl]

/-- What ends or continues the bitmap after one octet's pixels (42_unpack.md R143, R144). -/
theorem rowAdvance_cases (s : State) :
    (s.xb.toNat + 8 < s.width.toNat ∧ rowAdvance s = { s with xb := (s.xb.setWidth 17 + 8#17).setWidth 16 }) ∨
    (s.width.toNat ≤ s.xb.toNat + 8 ∧ (s.y + 1#16).toNat ≠ s.height.toNat ∧
      rowAdvance s = { s with xb := 0#16, y := s.y + 1#16 }) ∨
    (s.width.toNat ≤ s.xb.toNat + 8 ∧ (s.y + 1#16).toNat = s.height.toNat ∧
      rowAdvance s = endCheck { s with xb := 0#16, y := s.y + 1#16 }) := by
  have hx : (s.xb.setWidth 17 + 8#17).toNat = s.xb.toNat + 8 := by
    have := s.xb.isLt
    simp only [BitVec.toNat_add, BitVec.toNat_setWidth, BitVec.toNat_ofNat]
    omega
  unfold rowAdvance
  simp only [hx]
  split
  · exact .inl ⟨‹_›, rfl⟩
  · split
    · exact .inr (.inr ⟨by omega, ‹_›, rfl⟩)
    · exact .inr (.inl ⟨by omega, ‹_›, rfl⟩)

/-- The end check passes whenever the cursor is inside the buffer (42_unpack.md R144). -/
theorem endCheck_inside {s : State} (h : s.pos.toNat ≤ s.inLen.toNat) : endCheck s = { s with phase := .done } := by
  have : ¬ s.inLen < s.pos := by
    rw [BitVec.lt_def]
    omega
  simp [endCheck, this]

/-- ROW_BYTE: end of input, a step that does not happen, or the pixels and the advance (42_unpack.md R141). -/
theorem unpackOctet_cases (p : Byte) (s : State) :
    (s.inLen.toNat ≤ s.pos.toNat ∧ unpackOctet p s = raise .truncatedBitmap s) ∨
    (s.pos.toNat < s.inLen.toNat ∧ admitted s.platform.outCap (pixelWrites p s) = false ∧ unpackOctet p s = s) ∨
    (s.pos.toNat < s.inLen.toNat ∧ admitted s.platform.outCap (pixelWrites p s) = true ∧
      unpackOctet p s = rowAdvance (writePixels (pixelWrites p s) { s with pos := s.pos + 1#32 })) := by
  unfold unpackOctet
  rcases withOctet_cases bitmapEofCode s fun s1 =>
    let ws := pixelWrites p s1
    if admitted s1.platform.outCap ws then rowAdvance (writePixels ws s1) else s with ⟨h, e⟩ | ⟨h, e⟩
  · exact .inl ⟨h, e⟩
  · have hp : pixelWrites p { s with pos := s.pos + 1#32 } = pixelWrites p s := rfl
    rw [e]
    simp only [hp]
    cases ha : admitted s.platform.outCap (pixelWrites p s)
    · exact .inr (.inl ⟨h, rfl, by simp⟩)
    · exact .inr (.inr ⟨h, rfl, by simp⟩)

end Sys2Proof.Machine
end

