-- ==== Sys2Proof/Laws/PerInstr.lean ====
section
/-! SUPPORT. The family RowOf: the word a well-formed instruction is encoded in is selected by the row of
spec/opcode_table.json that bears its mnemonic (30_encoding.md R85). One lemma for each constructor. -/

namespace Sys2Proof.Laws.RowOf

/-- The word of `i` is selected by a row of its format with the mnemonic of `i`. -/
def Statement (i : Instr) : Prop :=
  i.wf = true →
    match encode i with
    | .step w => ∃ r ∈ stepRows, r.mnemonic = i.mnemonic ∧ r.selects w.toNat = true
    | .host w => ∃ r ∈ hostRows, r.mnemonic = i.mnemonic ∧ r.selects w.toNat = true

/-! ### The STEP rows -/

theorem typeCont (g : BitVec 7) : Statement (.typeCont g) :=
  fun _ => ⟨⟨"TYPE_CONT", 0x780, 0x180⟩, by decide, rfl, by revert g; decide +kernel⟩

theorem typeLast (g : BitVec 7) : Statement (.typeLast g) :=
  fun _ => ⟨⟨"TYPE_LAST", 0x780, 0x100⟩, by decide, rfl, by revert g; decide +kernel⟩

theorem fixZero : Statement .fixZero :=
  fun _ => ⟨⟨"FIX_ZERO", 0x7ff, 0x200⟩, by decide, rfl, by decide⟩

theorem fixNonzeroB7 (low : BitVec 7) : Statement (.fixNonzeroB7 low) :=
  fun _ => ⟨⟨"FIX_NONZERO_B7", 0x780, 0x280⟩, by decide, rfl, by revert low; decide +kernel⟩

theorem fixNonzeroB6 (low : BitVec 6) : Statement (.fixNonzeroB6 low) :=
  fun _ => ⟨⟨"FIX_NONZERO_B6", 0x7c0, 0x240⟩, by decide, rfl, by revert low; decide +kernel⟩

theorem fixNonzeroB5 (low : BitVec 5) : Statement (.fixNonzeroB5 low) :=
  fun _ => ⟨⟨"FIX_NONZERO_B5", 0x7e0, 0x220⟩, by decide, rfl, by revert low; decide +kernel⟩

theorem fixNonzeroB4 (low : BitVec 4) : Statement (.fixNonzeroB4 low) :=
  fun _ => ⟨⟨"FIX_NONZERO_B4", 0x7f0, 0x210⟩, by decide, rfl, by revert low; decide +kernel⟩

theorem fixNonzeroB3 (low : BitVec 3) : Statement (.fixNonzeroB3 low) :=
  fun _ => ⟨⟨"FIX_NONZERO_B3", 0x7f8, 0x208⟩, by decide, rfl, by revert low; decide +kernel⟩

theorem fixNonzeroB2 (low : BitVec 2) : Statement (.fixNonzeroB2 low) :=
  fun _ => ⟨⟨"FIX_NONZERO_B2", 0x7fc, 0x204⟩, by decide, rfl, by revert low; decide +kernel⟩

theorem fixNonzeroB1 (low : BitVec 1) : Statement (.fixNonzeroB1 low) :=
  fun _ => ⟨⟨"FIX_NONZERO_B1", 0x7fe, 0x202⟩, by decide, rfl, by revert low; decide +kernel⟩

theorem fixNonzeroB0 : Statement .fixNonzeroB0 :=
  fun _ => ⟨⟨"FIX_NONZERO_B0", 0x7ff, 0x201⟩, by decide, rfl, by decide⟩

theorem widthCont (g : BitVec 7) : Statement (.widthCont g) :=
  fun _ => ⟨⟨"WIDTH_CONT", 0x780, 0x380⟩, by decide, rfl, by revert g; decide +kernel⟩

theorem widthLast (g : BitVec 7) : Statement (.widthLast g) :=
  fun _ => ⟨⟨"WIDTH_LAST", 0x780, 0x300⟩, by decide, rfl, by revert g; decide +kernel⟩

theorem heightCont (g : BitVec 7) : Statement (.heightCont g) :=
  fun _ => ⟨⟨"HEIGHT_CONT", 0x780, 0x480⟩, by decide, rfl, by revert g; decide +kernel⟩

theorem heightLast (g : BitVec 7) : Statement (.heightLast g) :=
  fun _ => ⟨⟨"HEIGHT_LAST", 0x780, 0x400⟩, by decide, rfl, by revert g; decide +kernel⟩

theorem rowByte (p : Byte) : Statement (.rowByte p) :=
  fun _ => ⟨⟨"ROW_BYTE", 0x700, 0x500⟩, by decide, rfl, by revert p; decide +kernel⟩

/-! ### The HOST rows -/

/-- A HOST word as a number: the seven bits WR and OFF above the 32 data bits. -/
theorem hostWord_toNat (wr : Bool) (off : BitVec 6) (data : Word) :
    (hostWord wr off data).toNat = (wr.toNat * 64 + off.toNat) * 2 ^ 32 + data.toNat := by
  have ho := off.isLt
  have hd := data.isLt
  have h : (hostWord wr off data).toNat = ((BitVec.ofBool wr).toNat <<< 6 ||| off.toNat) <<< 32 ||| data.toNat := by
    rw [← BitVec.toNat_append, ← BitVec.toNat_append]; rfl
  rw [h, ← Nat.shiftLeft_add_eq_or_of_lt hd, ← Nat.shiftLeft_add_eq_or_of_lt ho, Nat.shiftLeft_eq, Nat.shiftLeft_eq]
  cases wr <;> rfl

/-- A mask acts on the two parts of a HOST word apart. -/
theorem and_parts (hi lo mh ml : Nat) (hl : lo < 2 ^ 32) (hm : ml < 2 ^ 32) :
    (hi * 2 ^ 32 + lo) &&& (mh * 2 ^ 32 + ml) = (hi &&& mh) * 2 ^ 32 + (lo &&& ml) := by
  apply Nat.eq_of_testBit_eq
  intro i
  have ha : lo &&& ml < 2 ^ 32 := Nat.lt_of_le_of_lt Nat.and_le_left hl
  rw [Nat.testBit_and, Nat.mul_comm hi, Nat.mul_comm mh, Nat.mul_comm (hi &&& mh),
    Nat.testBit_two_pow_mul_add _ hl, Nat.testBit_two_pow_mul_add _ hm, Nat.testBit_two_pow_mul_add _ ha]
  split <;> rw [Nat.testBit_and]

/-- A row whose mask leaves every data bit free selects by WR and OFF alone. -/
theorem selects_free {r : TableRow} {wr : Bool} {off : BitVec 6} (data : Word) (mh v : Nat)
    (hm : r.mask = mh * 2 ^ 32) (hv : r.value = v * 2 ^ 32) (h : (wr.toNat * 64 + off.toNat) &&& mh = v) :
    r.selects (hostWord wr off data).toNat = true := by
  have := and_parts (wr.toNat * 64 + off.toNat) data.toNat mh 0 data.isLt (by decide)
  rw [Nat.add_zero, Nat.and_zero, Nat.add_zero, h] at this
  rw [TableRow.selects, hostWord_toNat, hm, hv, this, beq_self_eq_true]

/-- A row whose mask also fixes data bit 0, on a word of CTRL. -/
theorem selects_ctrl {r : TableRow} (ign : BitVec 31) (b : BitVec 1)
    (hm : r.mask = 0x7F * 2 ^ 32 + 1) (hv : r.value = 0x40 * 2 ^ 32 + b.toNat) :
    r.selects (hostWord true 0x00#6 (ign ++ b)).toNat = true := by
  have h := and_parts 0x40 (ign ++ b : BitVec 32).toNat 0x7F 1 (ign ++ b : BitVec 32).isLt (by decide)
  have hb : (ign ++ b : BitVec 32).toNat &&& 1 = b.toNat := by
    have hlt := b.isLt
    rw [BitVec.toNat_append, Nat.and_one_is_mod, ← Nat.shiftLeft_add_eq_or_of_lt hlt, Nat.shiftLeft_eq]
    omega
  rw [hb] at h
  rw [TableRow.selects, hostWord_toNat, hm, hv]
  exact beq_iff_eq.mpr h

theorem readReg (off : BitVec 6) (data : Word) : Statement (.readReg off data) := by
  intro hw
  refine ⟨⟨"READ_REG", 0x4300000000, 0x0⟩, by decide, rfl, selects_free data 0x43 0 rfl rfl ?_⟩
  have h : offsetAligned off = true := hw
  clear hw
  revert off
  decide

theorem start (ign : BitVec 31) : Statement (.start ign) :=
  fun _ => ⟨⟨"START", 0x7f00000001, 0x4000000001⟩, by decide, rfl, selects_ctrl ign 1#1 rfl rfl⟩

theorem ctrlWriteZero (ign : BitVec 31) : Statement (.ctrlWriteZero ign) :=
  fun _ => ⟨⟨"CTRL_WRITE_ZERO", 0x7f00000001, 0x4000000000⟩, by decide, rfl, selects_ctrl ign 0#1 rfl rfl⟩

theorem writeIgnoredStatus (data : Word) : Statement (.writeIgnoredStatus data) :=
  fun _ => ⟨⟨"WRITE_IGNORED_STATUS", 0x7f00000000, 0x4400000000⟩, by decide, rfl,
    selects_free data 0x7F 0x44 rfl rfl (by decide)⟩

theorem writeIgnoredErrcode (data : Word) : Statement (.writeIgnoredErrcode data) :=
  fun _ => ⟨⟨"WRITE_IGNORED_ERRCODE", 0x7f00000000, 0x4800000000⟩, by decide, rfl,
    selects_free data 0x7F 0x48 rfl rfl (by decide)⟩

theorem writeInLen (data : Word) : Statement (.writeInLen data) :=
  fun _ => ⟨⟨"WRITE_IN_LEN", 0x7f00000000, 0x4c00000000⟩, by decide, rfl,
    selects_free data 0x7F 0x4C rfl rfl (by decide)⟩

theorem writeIgnoredRo (off : BitVec 6) (data : Word) : Statement (.writeIgnoredRo off data) := by
  intro hw
  refine ⟨⟨"WRITE_IGNORED_RO", 0x7300000000, 0x5000000000⟩, by decide, rfl, selects_free data 0x73 0x50 rfl rfl ?_⟩
  have h : offsetReadOnly off = true := hw
  clear hw
  revert off
  decide

theorem writeIgnoredRsvd (off : BitVec 6) (data : Word) : Statement (.writeIgnoredRsvd off data) := by
  intro hw
  refine ⟨⟨"WRITE_IGNORED_RSVD", 0x6300000000, 0x6000000000⟩, by decide, rfl, selects_free data 0x63 0x60 rfl rfl ?_⟩
  have h : offsetReserved off = true := hw
  clear hw
  revert off
  decide

end Sys2Proof.Laws.RowOf
end

