-- ==== Sys2Proof/Laws/Step.lean ====
section
/-! SUPPORT. What one step can do: whose turn it is, and what the block's turn is. -/

namespace Sys2Proof.Machine

/-- A step that answers a next state is the block's turn or one entry of the agenda. -/
theorem step_next {s t : State} (h : step s = .next t) :
    s.runnable ∧ ((s.agenda = [] ∧ blockStep s = .next t) ∨
      ∃ e rest, s.agenda = e :: rest ∧ runEvent e { s with agenda := rest } = .next t) := by
  unfold step machineStep at h
  split at h
  · cases h
  · split at h
    · refine ⟨⟨‹_›, ‹_›⟩, ?_⟩
      unfold nextMove at h
      split at h
      · exact .inl ⟨‹_›, h⟩
      · exact .inr ⟨_, _, ‹_›, h⟩
    · cases h

theorem step_of_runnable {s : State} (h : s.runnable) : step s = nextMove s := by
  simp only [step, machineStep, if_neg h.1, if_pos h.2]

theorem step_block {s : State} (h : s.runnable) (ha : s.agenda = []) : step s = blockStep s := by
  rw [step_of_runnable h, nextMove, ha]

theorem step_event {s : State} (h : s.runnable) {e : HostEvent} {rest : List HostEvent} (ha : s.agenda = e :: rest) :
    step s = runEvent e { s with agenda := rest } := by
  rw [step_of_runnable h, nextMove, ha]

theorem eofKind_busy {ph : Phase} (h : phaseBusy ph = true) :
    eofKind ph = some (if ph = .rows then .truncatedBitmap else .outOfBounds) := by
  cases ph <;> simp_all [eofKind, phaseBusy, bitmapEofCode]

/-- The block at rest. -/
theorem blockStep_rest {s : State} (h : s.busy = false) : blockStep s = .next s := by
  unfold blockStep
  rw [(eofKind_none_iff s.phase).mpr h]

/-- The block at the end of the input. -/
theorem blockStep_end {s : State} (h : s.busy = true) (he : s.inLen.toNat ≤ s.pos.toNat) :
    blockStep s = .next (raise (if s.phase = .rows then .truncatedBitmap else .outOfBounds) s) := by
  have he' : s.inLen ≤ s.pos := he
  unfold blockStep
  rw [eofKind_busy h]
  simp only [if_pos he']

/-- The block with an octet left. -/
theorem blockStep_octet {s : State} {i : Instr} (h : s.busy = true) (he : s.pos.toNat < s.inLen.toNat)
    (hd : decodeOctet s.phase (s.inRead s.pos.toNat) = .ok i) : blockStep s = exec i s := by
  have he' : ¬ s.inLen ≤ s.pos := by rw [BitVec.le_def]; omega
  unfold blockStep
  rw [eofKind_busy h]
  simp only [if_neg he', State.fetchWord, decode_stepWord, hd]

/-- Everything the block's turn can be. -/
theorem blockStep_cases (s : State) :
    (s.busy = false ∧ blockStep s = .next s) ∨
    (s.busy = true ∧ s.inLen.toNat ≤ s.pos.toNat ∧
      blockStep s = .next (raise (if s.phase = .rows then .truncatedBitmap else .outOfBounds) s)) ∨
    (s.busy = true ∧ s.pos.toNat < s.inLen.toNat ∧
      ∃ i, decodeOctet s.phase (s.inRead s.pos.toNat) = .ok i ∧ blockStep s = exec i s) := by
  cases hb : s.busy
  · exact .inl ⟨rfl, blockStep_rest hb⟩
  · by_cases he : s.inLen.toNat ≤ s.pos.toNat
    · exact .inr (.inl ⟨rfl, he, blockStep_end hb he⟩)
    · obtain ⟨i, hi⟩ := decodeOctet_busy hb (s.inRead s.pos.toNat)
      exact .inr (.inr ⟨rfl, by omega, i, hi, blockStep_octet hb (by omega) hi⟩)

/-- The rows an octet can select in each BUSY phase. -/
theorem decodeOctet_rows {ph : Phase} {o : Byte} {i : Instr} (h : decodeOctet ph o = .ok i) :
    (ph = .type ∧ ((octetC o = true ∧ i = .typeCont (octetG o)) ∨ (octetC o = false ∧ i = .typeLast (octetG o)))) ∨
    (ph = .fix ∧ (i = .fixZero ∨ isFixNonzeroRow i = true)) ∨
    (ph = .width ∧ ((octetC o = true ∧ i = .widthCont (octetG o)) ∨ (octetC o = false ∧ i = .widthLast (octetG o)))) ∨
    (ph = .height ∧
      ((octetC o = true ∧ i = .heightCont (octetG o)) ∨ (octetC o = false ∧ i = .heightLast (octetG o)))) ∨
    (ph = .rows ∧ i = .rowByte o) := by
  cases ph <;> simp only [decodeOctet, reduceCtorEq, Except.ok.injEq] at h
  case fix => exact h ▸ .inr (.inl ⟨rfl, decodeFix_cases o⟩)
  case rows => exact .inr (.inr (.inr (.inr ⟨rfl, h.symm⟩)))
  all_goals cases hc : octetC o <;> simp [hc] at h <;> simp [h]

theorem exec_fixNonzero {i : Instr} (h : isFixNonzeroRow i = true) (s : State) : exec i s = .next (fixNonzero s) := by
  cases i <;> simp_all [isFixNonzeroRow, exec, execFixNonzeroB7, execFixNonzeroB6, execFixNonzeroB5,
    execFixNonzeroB4, execFixNonzeroB3, execFixNonzeroB2, execFixNonzeroB1, execFixNonzeroB0]

/-- Everything a host access to the register window can be. -/
theorem registerAccess_cases (wr : Bool) (offset bytes : Nat) (data : Word) (s : State) :
    (¬(bytes = 4 ∧ offset % 4 = 0 ∧ offset < 64) ∧
      registerAccess wr offset bytes data s = .refused .badRegisterAccess) ∨
    (bytes = 4 ∧ offset % 4 = 0 ∧ offset < 64 ∧
      registerAccess wr offset bytes data s =
        exec (if wr then decodeHostWrite (BitVec.ofNat 6 offset) data else .readReg (BitVec.ofNat 6 offset) data) s) := by
  unfold registerAccess
  by_cases h : bytes = regAccessBytes ∧ offset < regWindow
  · rw [if_pos h, decode_hostWord, decodeAccess]
    obtain ⟨h4, h64⟩ := h
    simp only [regAccessBytes, regWindow] at h4 h64
    have ha := offsetAligned_iff (BitVec.ofNat 6 offset)
    rw [BitVec.toNat_ofNat, Nat.mod_eq_of_lt (show offset < 2 ^ 6 by omega)] at ha
    by_cases hm : offset % 4 = 0
    · exact .inr ⟨h4, hm, h64, by rw [if_pos (ha.mpr hm)]⟩
    · exact .inl ⟨fun h => hm h.2.1, by rw [if_neg fun h => hm (ha.mp h)]⟩
  · rw [if_neg h]
    simp only [regAccessBytes, regWindow] at h
    exact .inl ⟨fun h' => h ⟨h'.1, h'.2.2⟩, rfl⟩

/-- A host write selects one of the seven write rows. -/
theorem decodeHostWrite_rows (off : BitVec 6) (data : Word) :
    (off = 0x00#6 ∧ data.getLsbD 0 = true ∧ decodeHostWrite off data = .start (data.extractLsb' 1 31)) ∨
    (off = 0x00#6 ∧ data.getLsbD 0 = false ∧ decodeHostWrite off data = .ctrlWriteZero (data.extractLsb' 1 31)) ∨
    decodeHostWrite off data = .writeIgnoredStatus data ∨ decodeHostWrite off data = .writeIgnoredErrcode data ∨
    decodeHostWrite off data = .writeInLen data ∨ decodeHostWrite off data = .writeIgnoredRo off data ∨
    decodeHostWrite off data = .writeIgnoredRsvd off data := by
  unfold decodeHostWrite
  by_cases h0 : off = 0x00#6
  · cases hd : data.getLsbD 0 <;> simp [h0]
  · simp only [h0, if_false, false_and, false_or]
    repeat' split
    all_goals simp

end Sys2Proof.Machine
end

