-- ==== Sys2Proof/Tests/Slice0.lean ====
section
/-! SUPPORT. Tests of the model and witnesses of the statements' hypotheses. Every expected value is taken from
spec/95_test_vectors.md (its id is named) or worked out by hand from the rule named. -/

namespace Sys2Proof.Tests

open Sys2Proof Sys2Proof.Machine

/-! ### Small states -/

/-- Octets at rising addresses from 0. -/
def cells (os : List Byte) : Memory := os.zipIdx.map fun c => (c.2, c.1)

/-- A decode in phase `ph` over the stream `os`, at cursor `pos` with accumulator `acc`; all else as after START. -/
def decoding (ph : Phase) (pos acc : Word) (os : List Byte) : State :=
  { State.reset with
    phase := ph, pos := pos, acc := acc, inLen := BitVec.ofNat 32 os.length, input := cells os, sync := .pending }

/-- A bitmap of `w` by `h` pixels at row `y`, column `xb`, cursor `pos` of the stream `os`. -/
def bitmap (w h : Word) (y xb : BitVec 16) (pos : Word) (os : List Byte) : State :=
  { decoding .rows pos 0 os with
    width := w, height := h, y := y, xb := xb
    wptr := BitVec.ofNat 34 ((y.toNat * w.toNat + xb.toNat) * 4) }

/-- A field of the next state, when there is one. -/
def after {α : Type} (a : Answer) (f : State → α) : Option α :=
  match a with
  | .next t => some (f t)
  | .fault _ => none
  | .refused _ => none

/-- The machine stops with this refusal. -/
def refusedWith (r : Refusal) (a : Answer) : Bool :=
  match a with
  | .next _ => false
  | .fault _ => false
  | .refused r' => r == r'

/-- The machine stops with this fault. -/
def faultsWith (r : Fault) (a : Answer) : Bool :=
  match a with
  | .next _ => false
  | .fault r' => r == r'
  | .refused _ => false

/-- 9 by 1 pixels, at the second octet (E6). -/
def nineWide : State := bitmap 9 1 0 8 5 [0x00, 0x00, 0x09, 0x01, 0xFF, 0x7F]

/-- 10 by 2 pixels, before the first octet (V-R7). -/
def tenWide : State := bitmap 10 2 0 0 5 [0x80, 0x00, 0x00, 0x0A, 0x02, 0xFF, 0x7F, 0x00, 0xBF]

/-- 10 by 2 pixels, at the second octet (V-R8). -/
def tenWideEnd : State := { tenWide with pos := 6, xb := 8, wptr := 32 }

/-- 1 by 1 pixel on a platform that backs 3 bytes (V-R9). -/
def noRoom : State :=
  { bitmap 1 1 0 0 4 [0x00, 0x00, 0x01, 0x01, 0x80] with platform := { Platform.atReset with outCap := 3 } }

/-- The end state of E4 after the host has read STATUS: one white pixel. -/
def finished : State :=
  { bitmap 1 1 1 0 5 [0x00, 0x00, 0x01, 0x01, 0x80] with
    phase := .done, output := cells [0xFF, 0xFF, 0xFF, 0xFF], sync := .owner }

/-- The end state of E7, STATUS not read yet. -/
def failedType : State := { decoding .error 1 0 [0x01] with imgType := 1, errcode := 3 }

/-- E4 decoded over an image of two pixels that the host has seen, STATUS not read since. -/
def finishedUnread : State := { finished with output := cells [0xFF, 0xFF, 0xFF, 0xFF, 0, 0, 0, 0xFF], sync := .pending }

/-- `finishedUnread` after START and a reset. -/
def restarted : State := resetBlock (startDecode finishedUnread)

/-- `s` when the agenda holds only `e`. -/
def thenEvent (s : State) (e : HostEvent) : State := { s with agenda := [e] }

/-! ### Well-formedness: the three checks, an ill-formed term refused and its neighbour accepted -/

theorem test_wf_read_misaligned : (Instr.readReg 0x02#6 0).wf = false ∧ (Instr.readReg 0x04#6 0).wf = true := by decide

theorem test_wf_ro_offset : (Instr.writeIgnoredRo 0x0C#6 0).wf = false ∧ (Instr.writeIgnoredRo 0x1C#6 0).wf = true := by
  decide

theorem test_wf_rsvd_offset :
    (Instr.writeIgnoredRsvd 0x10#6 0).wf = false ∧ (Instr.writeIgnoredRsvd 0x22#6 0).wf = false ∧
      (Instr.writeIgnoredRsvd 0x3C#6 0).wf = true := by decide

/-! ### Decoding: one word for each constructor, written out from 30_encoding.md R80 and R85 -/

theorem test_decode_header_varints :
    decode (.step 0b001_1_0000010#11) = .ok (.typeCont 2#7) ∧
    decode (.step 0b001_0_1111111#11) = .ok (.typeLast 127#7) ∧
    decode (.step 0b011_1_0000010#11) = .ok (.widthCont 2#7) ∧
    decode (.step 0b011_0_0101100#11) = .ok (.widthLast 44#7) ∧
    decode (.step 0b100_1_0000001#11) = .ok (.heightCont 1#7) ∧
    decode (.step 0b100_0_0000001#11) = .ok (.heightLast 1#7) := ⟨rfl, rfl, rfl, rfl, rfl, rfl⟩

theorem test_decode_fix :
    decode (.step 0b010_00000000#11) = .ok .fixZero ∧
    decode (.step 0b010_1_0000001#11) = .ok (.fixNonzeroB7 1#7) ∧
    decode (.step 0b010_01_000010#11) = .ok (.fixNonzeroB6 2#6) ∧
    decode (.step 0b010_001_00101#11) = .ok (.fixNonzeroB5 5#5) ∧
    decode (.step 0b010_0001_0110#11) = .ok (.fixNonzeroB4 6#4) ∧
    decode (.step 0b010_00001_011#11) = .ok (.fixNonzeroB3 3#3) ∧
    decode (.step 0b010_000001_10#11) = .ok (.fixNonzeroB2 2#2) ∧
    decode (.step 0b010_0000001_1#11) = .ok (.fixNonzeroB1 1#1) ∧
    decode (.step 0b010_00000001#11) = .ok .fixNonzeroB0 := ⟨rfl, rfl, rfl, rfl, rfl, rfl, rfl, rfl, rfl⟩

theorem test_decode_row : decode (.step 0b101_10100101#11) = .ok (.rowByte 0xA5#8) := rfl

theorem test_decode_host :
    decode (.host 0b0_000100_00000000000000000000000000000000#39) = .ok (.readReg 0x04#6 0#32) ∧
    decode (.host 0b1_000000_00000000000000000000000000000011#39) = .ok (.start 1#31) ∧
    decode (.host 0b1_000000_00000000000000000000000000000010#39) = .ok (.ctrlWriteZero 1#31) ∧
    decode (.host 0b1_000100_11111111111111111111111111111111#39) = .ok (.writeIgnoredStatus 0xFFFFFFFF#32) ∧
    decode (.host 0b1_001000_00000000000000000000000000000001#39) = .ok (.writeIgnoredErrcode 1#32) ∧
    decode (.host 0b1_001100_00000000000000000000000000000101#39) = .ok (.writeInLen 5#32) ∧
    decode (.host 0b1_011000_00000000000000000000000000000001#39) = .ok (.writeIgnoredRo 0x18#6 1#32) ∧
    decode (.host 0b1_111100_00000000000000000000000000000001#39) = .ok (.writeIgnoredRsvd 0x3C#6 1#32) :=
  ⟨rfl, rfl, rfl, rfl, rfl, rfl, rfl, rfl⟩

theorem test_decode_rejects :
    decode (.step 0b000_00000000#11) = .error .noStepInPhase ∧
    decode (.step 0b110_10000000#11) = .error .noStepInPhase ∧
    decode (.step 0b111_11111111#11) = .error .noStepInPhase ∧
    decode (.host 0b1_000001_00000000000000000000000000000001#39) = .error .misalignedOffset ∧
    decode (.host 0b0_111110_00000000000000000000000000000000#39) = .error .misalignedOffset :=
  ⟨rfl, rfl, rfl, rfl, rfl⟩

theorem test_table_word :
    decodeTableWord 16 0x180 = some (.typeCont 0#7) ∧ decodeTableWord 16 0x5A5 = some (.rowByte 0xA5#8) ∧
    decodeTableWord 40 0x4000000001 = some (.start 0#31) ∧ decodeTableWord 16 0x800 = none ∧
    decodeTableWord 40 0x8000000000 = none := by decide

/-! ### One step of each instruction -/

/-- P6, address 2. -/
theorem test_widthCont : after (exec (.widthCont 2#7) (decoding .width 2 0 [0x00, 0x00, 0x82, 0x2C]))
    (fun t => (t.phase, t.pos, t.acc, t.width)) = some (.width, 3, 2, 0) := by decide

/-- V-I16: the read comes before the guard. -/
theorem test_widthCont_end : after (exec (.widthCont 0#7) (decoding .width 4 0x1000000 [0x88, 0x80, 0x80, 0x80]))
    (fun t => (t.phase, t.pos, t.errcode)) = some (.error, 4, 1) := by decide

/-- E11, P6, address 3. -/
theorem test_widthLast : after (exec (.widthLast 0x2C#7) (decoding .width 3 2 [0x00, 0x00, 0x82, 0x2C]))
    (fun t => (t.phase, t.pos, t.acc, t.width)) = some (.height, 4, 0, 300) := by decide

/-- P3, address 6. -/
theorem test_widthLast_overflow :
    after (exec (.widthLast 0#7) (decoding .width 6 0x1000000 [0x00, 0x00, 0x88, 0x80, 0x80, 0x80, 0x00, 0x01]))
      (fun t => (t.phase, t.pos, t.acc, t.width, t.errcode)) = some (.error, 7, 0x1000000, 0, 2) := by decide

/-- V-T6, address 0. -/
theorem test_typeCont : after (exec (.typeCont 0#7) (decoding .type 0 0 [0x80, 0x00]))
    (fun t => (t.phase, t.pos, t.acc)) = some (.type, 1, 0) := by decide

/-- V-T1: the input is empty. -/
theorem test_typeLast_end : after (exec (.typeLast 0#7) (decoding .type 0 0 []))
    (fun t => (t.phase, t.pos, t.errcode)) = some (.error, 0, 1) := by decide

/-- V-T4: type 128. -/
theorem test_typeLast_unsupported : after (exec (.typeLast 0#7) (decoding .type 1 1 [0x81, 0x00]))
    (fun t => (t.phase, t.pos, t.imgType, t.errcode)) = some (.error, 2, 128, 3) := by decide

/-- P1, address 1. -/
theorem test_fixZero : after (exec .fixZero (decoding .fix 1 0 [0x00, 0x00]))
    (fun t => (t.phase, t.pos)) = some (.width, 2) := by decide

/-- V-F3, V-F5. -/
theorem test_fixNonzero :
    after (exec .fixNonzeroB0 (decoding .fix 1 0 [0x00, 0x01])) (fun t => (t.phase, t.pos, t.errcode)) =
      some (.error, 2, 4) ∧
    after (exec (.fixNonzeroB7 0x7F#7) (decoding .fix 1 0 [0x00, 0xFF])) (fun t => (t.phase, t.pos, t.errcode)) =
      some (.error, 2, 4) := by decide

/-- V-D10, address 3. -/
theorem test_heightCont : after (exec (.heightCont 1#7) { decoding .height 3 0 [0, 0, 1, 0x81] with width := 1 })
    (fun t => (t.phase, t.pos, t.acc, t.height)) = some (.height, 4, 1, 0) := by decide

/-- V-D9: both dimensions 65535. -/
theorem test_heightLast_max :
    after (exec (.heightLast 0x7F#7) { decoding .height 7 0x1FF [0, 0, 0x83, 0xFF, 0x7F, 0x83, 0xFF, 0x7F] with
      width := 65535 }) (fun t => (t.phase, t.pos, t.height, t.wptr)) = some (.rows, 8, 65535, 0) := by decide

/-- V-D1: width 0 is found when the height is complete. -/
theorem test_heightLast_zero_width : after (exec (.heightLast 5#7) (decoding .height 3 0 [0, 0, 0, 5]))
    (fun t => (t.phase, t.pos, t.width, t.height, t.errcode)) = some (.error, 4, 0, 5, 5) := by decide

/-- E6: the last octet of a row of 9 writes one black pixel, its seven padding bits nothing. -/
theorem test_rowByte_padding :
    after (exec (.rowByte 0x7F) nineWide) (fun t => (t.phase, t.pos, t.y, t.xb, t.wptr)) = some (.done, 6, 1, 0, 36) ∧
    after (exec (.rowByte 0x7F) nineWide) State.output = some [(32, 0x00), (33, 0x00), (34, 0x00), (35, 0xFF)] := by
  decide

/-- P2, address 6: the row's last octet, not the last row. -/
theorem test_rowByte_row_end :
    after (exec (.rowByte 0x7F) tenWideEnd) (fun t => (t.phase, t.y, t.xb, t.wptr)) = some (.rows, 1, 0, 40) ∧
    after (exec (.rowByte 0x7F) tenWideEnd) (fun t => (t.output.read 32, t.output.read 36)) =
      some (some 0x00, some 0xFF) := by decide

/-- V-R9: the step is not admitted. -/
theorem test_rowByte_stuck : after (exec (.rowByte 0x80) noRoom) (fun t => decide (t = noRoom)) = some true := by decide

/-- V-D11: the bitmap is missing. -/
theorem test_rowByte_truncated : after (step (bitmap 1 1 0 0 4 [0x00, 0x00, 0x01, 0x01]))
    (fun t => (t.phase, t.pos, t.errcode)) = some (.error, 4, 6) := by decide

/-- V-H1, V-H4, V-H7, V-H9: STATUS after reset, while BUSY in TYPE, at DONE and at ERROR. -/
theorem test_readReg_status :
    [State.reset, decoding .type 0 0 [], finished, failedType].map
      (fun s => after (exec (.readReg 0x04#6 0) s) State.rdata) =
        [some 0x00#32, some 0x11#32, some 0x62#32, some 0x74#32] := by decide

/-- V-H9, V-H8, V-H2: ERRCODE, POS and IMG_TYPE at ERROR, WIDTH and HEIGHT at DONE, and a reserved offset. -/
theorem test_readReg_others :
    [0x08#6, 0x10#6, 0x14#6].map (fun off => after (exec (.readReg off 0) failedType) State.rdata) =
      [some 3#32, some 1#32, some 1#32] ∧
    [0x0C#6, 0x18#6, 0x1C#6, 0x20#6].map (fun off => after (exec (.readReg off 0) finished) State.rdata) =
      [some 5#32, some 1#32, some 1#32, some 0#32] := by decide

/-- V-H10: START from ERROR keeps IN_LEN. -/
theorem test_start : after (exec (.start 0#31) failedType)
    (fun t => (t.phase, t.pos, t.imgType, t.errcode, t.inLen)) = some (.type, 0, 0, 0, 1) := by decide

/-- V-H5: START while BUSY. -/
theorem test_start_busy : after (exec (.start 0#31) (decoding .width 2 0 [0x00, 0x00, 0x05]))
    (fun t => (t.phase, t.pos)) = some (.width, 2) := by decide

/-- V-H7. -/
theorem test_ctrlWriteZero : after (exec (.ctrlWriteZero 0#31) finished) (fun t => decide (t = finished)) = some true := by
  decide

/-- V-H8. -/
theorem test_ignored_writes :
    [Instr.writeIgnoredStatus 0xFFFFFFFF#32, .writeIgnoredErrcode 0xFFFFFFFF#32, .writeIgnoredRo 0x18#6 0xFFFFFFFF#32,
      .writeIgnoredRsvd 0x20#6 0xFFFFFFFF#32].all
        (fun i => after (exec i finished) (fun t => decide (t = finished)) == some true) = true := by decide

/-- V-H3, V-H6. -/
theorem test_writeInLen :
    after (exec (.writeInLen 5) State.reset) State.inLen = some 5 ∧
    after (exec (.writeInLen 9) (decoding .type 0 0 [0, 0, 1, 1, 0x80])) State.inLen = some 5 := by decide

/-! ### The step, the host and reset -/

/-- P1, address 0, as a whole step: the octet is fetched at POS. -/
theorem test_step_block : after (step (decoding .type 0 0 [0x00, 0x00])) (fun t => (t.phase, t.pos)) =
    some (.fix, 1) := by decide

/-- V-H12: a byte write to 0x01, a word read at 0x40. -/
theorem test_bad_register_access :
    refusedWith .badRegisterAccess (step (thenEvent finished (.register true 0x01 1 1))) = true ∧
    refusedWith .badRegisterAccess (step (thenEvent finished (.register false 0x40 4 0))) = true ∧
    refusedWith .badRegisterAccess (step (thenEvent finished (.register false 0x02 4 0))) = true := by decide

/-- 70_reset_and_hazards.md R205, R206. -/
theorem test_host_writes_refused :
    refusedWith .inputWriteDuringDecode (step (thenEvent nineWide (.writeInput 0 0))) = true ∧
    refusedWith .inputWriteDuringDecode (step (thenEvent failedType (.writeInput 0 0))) = true ∧
    refusedWith .outputWriteWhileBusy (step (thenEvent nineWide (.writeOutput 0 0))) = true := by decide

/-- P7: the host reads the output bytes after DONE. -/
theorem test_host_reads_output : after (step (thenEvent finished (.readOutput 3))) State.rdata = some 0xFF := by decide

/-- 20_memory.md R61 item 2, R53: STATUS not read since the decode, a byte it did not write is exact, one it wrote is a
draw. -/
theorem test_host_reads_unread_output :
    after (step (thenEvent finishedUnread (.readOutput 7))) (fun t => (t.rdata, t.draws)) = some (0xFF, 0) ∧
    after (step (thenEvent finishedUnread (.readOutput 0))) State.draws = some 1 := by decide

/-- 20_memory.md R63: after a STATUS read with DONE, START and a reset in the header leave every byte ordered. -/
theorem test_start_and_reset_after_done :
    (resetBlock (startDecode finished)).unorderedBelow = 0 ∧
    after (step (thenEvent (resetBlock (startDecode finished)) (.writeOutput 0 0x5A)))
      (fun t => (t.output.read 0, t.draws)) = some (some 0x5A, 0) := by decide

/-- 20_memory.md R63: START and reset do not order the writes of a decode whose STATUS has not been read. -/
theorem test_start_keeps_unordered :
    restarted.unorderedBelow = 4 ∧
    after (step (thenEvent restarted (.writeOutput 3 0x5A))) State.draws = some 1 ∧
    after (step (thenEvent restarted (.writeOutput 4 0x5A))) (fun t => (t.output.read 4, t.draws)) =
      some (some 0x5A, 0) := by decide

/-- 20_memory.md R50. -/
theorem test_unbacked_output :
    faultsWith .outputAddressUnbacked (step (thenEvent noRoom (.readOutput 3))) = true := by decide

/-- V-X3. -/
theorem test_reset_in_flight : after (step (thenEvent { tenWideEnd with output := cells [0xFF] } .reset))
    (fun t => (t.registers, t.output)) = some (Registers.atReset, [(0, 0xFF)]) := by decide

/-- Placing a word of either format after reset runs it (log entry 10). -/
theorem test_withFetchWord :
    after (step (State.reset.withFetchWord 16 0x382)) (fun t => (t.phase, t.pos, t.acc)) = some (.width, 1, 2) ∧
    after (step (State.reset.withFetchWord 40 0x4c00000005)) State.inLen = some 5 := by decide

/-! ### Witnesses: sound states -/

theorem sound_nineWide : Sound nineWide :=
  sound_of_rows rfl ⟨rfl, rfl, rfl, rfl⟩ (by decide) (by decide) (by decide) (by decide)

theorem sound_tenWide : Sound tenWide :=
  sound_of_rows rfl ⟨rfl, rfl, rfl, rfl⟩ (by decide) (by decide) (by decide) (by decide)

theorem sound_tenWideEnd : Sound tenWideEnd :=
  sound_of_rows rfl ⟨rfl, rfl, rfl, rfl⟩ (by decide) (by decide) (by decide) (by decide)

theorem sound_noRoom : Sound noRoom :=
  sound_of_rows rfl ⟨rfl, rfl, rfl, rfl⟩ (by decide) (by decide) (by decide) (by decide)

theorem sound_finished : Sound finished :=
  sound_of_done rfl ⟨rfl, rfl, rfl⟩ rfl (by decide) (by decide) (by decide)

/-! ### Witnesses: encoding -/

theorem witness_DecodeReadsBackEncode :
    (Instr.typeCont 127#7).wf = true ∧ (Instr.readReg 0x3C#6 0xFFFFFFFF#32).wf = true ∧
    (Instr.writeIgnoredRo 0x10#6 0#32).wf = true ∧ (Instr.writeIgnoredRsvd 0x20#6 0#32).wf = true := by decide

theorem witness_EncodeReadsBackDecode :
    decode (.step 0b010_11111111#11) = .ok (.fixNonzeroB7 127#7) ∧
    decode (.host 0b0_111100_11111111111111111111111111111111#39) = .ok (.readReg 0x3C#6 0xFFFFFFFF#32) := ⟨rfl, rfl⟩

theorem witness_StepWordsFollowTheTable :
    ∃ r ∈ stepRows, r.selects (0x2FF#11).toNat = true ∧ decode (.step 0x2FF#11) = .ok (.fixNonzeroB7 127#7) ∧
      r.mnemonic = "FIX_NONZERO_B7" := ⟨⟨"FIX_NONZERO_B7", 0x780, 0x280⟩, by decide, by decide, rfl, rfl⟩

theorem witness_HostWordsFollowTheTable :
    ∃ r ∈ hostRows, r.selects (0x7C00000000#39).toNat = true ∧
      decode (.host 0x7C00000000#39) = .ok (.writeIgnoredRsvd 0x3C#6 0#32) ∧ r.mnemonic = "WRITE_IGNORED_RSVD" :=
  ⟨⟨"WRITE_IGNORED_RSVD", 0x6300000000, 0x6000000000⟩, by decide, by decide, rfl, rfl⟩

theorem witness_WordsOutsideTheTableAreRejected :
    Phase.idle.bits.toNat = 0 ∧ Phase.done.bits.toNat = 6 ∧ Phase.error.bits.toNat = 7 ∧
    (0x01#6).toNat % 4 ≠ 0 ∧ (0x3F#6).toNat % 4 ≠ 0 ∧ (0x3C#6).toNat % 4 = 0 := by decide

/-! ### Witnesses: the step -/

theorem witness_BlockStepRunsTheSelectedRow :
    nineWide.runnable ∧ nineWide.busy = true ∧ nineWide.pos.toNat < nineWide.inLen.toNat ∧
    decode (.step (stepWord nineWide.phase (nineWide.inRead nineWide.pos.toNat))) = .ok (.rowByte 0x7F) ∧
    nineWide.agenda = [] ∧ (thenEvent nineWide .block).agenda = .block :: [] :=
  ⟨by decide, by decide, by decide, rfl, rfl, rfl⟩

theorem witness_HostAccessRunsItsRow :
    (thenEvent finished (.register true 0 4 1)).runnable ∧
    (thenEvent finished (.register true 0 4 1)).agenda = .register true (0#6).toNat 4 1#32 :: [] ∧
    decode (.host (hostWord true 0#6 1#32)) = .ok (.start 0#31) := ⟨by decide, rfl, rfl⟩

theorem witness_OtherRegisterAccessIsRefused :
    (thenEvent finished (.register true 0 1 1)).runnable ∧ ¬(1 = 4 ∧ 0 % 4 = 0 ∧ 0 < 64) ∧
    ¬(4 = 4 ∧ 1 % 4 = 0 ∧ 1 < 64) ∧ ¬(4 = 4 ∧ 64 % 4 = 0 ∧ 64 < 64) := by decide

theorem witness_RestingBlockTakesNoStep :
    (State.reset.runnable ∧ State.reset.phase = .idle ∧ State.reset.agenda = []) ∧
    (finished.runnable ∧ finished.phase = .done ∧ finished.agenda = []) ∧
    (failedType.runnable ∧ failedType.phase = .error ∧ (thenEvent failedType .block).agenda = .block :: []) := by decide

theorem witness_EndOfInputRaisesThePhasesError :
    let s := bitmap 1 1 0 0 4 [0x00, 0x00, 0x01, 0x01]
    let u := decoding .type 0 0 []
    (s.runnable ∧ s.busy = true ∧ s.inLen.toNat ≤ s.pos.toNat ∧ s.agenda = [] ∧ s.phase = .rows) ∧
    (u.runnable ∧ u.busy = true ∧ u.inLen.toNat ≤ u.pos.toNat ∧ u.agenda = [] ∧ u.phase ≠ .rows) := by decide

theorem witness_PlacedWordRunsFirstAfterReset :
    decode (.step 0x5FF#11) = .ok (.rowByte 0xFF) ∧ decode (.host 0x4C00000005#39) = .ok (.writeInLen 5) := ⟨rfl, rfl⟩

/-- The second state's output space covers the register window. -/
theorem witness_ReservedCodeAndOverlapStop :
    ({ State.reset with errcode := 7 } : State).errcode = 7#3 ∧
    ({ State.reset with platform := { Platform.atReset with outCap := 0x500000001 } } : State).errcode ≠ 7#3 ∧
    ({ State.reset with platform := { Platform.atReset with outCap := 0x500000001 } } : State).spacesDisjoint = false := by
  decide

/-! ### Witnesses: the header -/

/-- The largest ACC that passes the guard. -/
theorem witness_ContinuationOctetAccumulates :
    let s := decoding .type 0 0x00FFFFFF [0xFF]
    s.pos.toNat < s.inLen.toNat ∧ s.acc &&& 0xFF000000#32 = 0#32 := by decide

/-- The smallest ACC that fails the guard. -/
theorem witness_GuardRaisesIntegerOverflow :
    let s := decoding .height 0 0x01000000 [0xFF]
    s.pos.toNat < s.inLen.toNat ∧ s.acc &&& 0xFF000000#32 ≠ 0#32 ∧
    Instr.heightLast 0 ∈ [.typeCont 0, .typeLast 0, .widthCont 0, .widthLast 0, .heightCont 0, .heightLast 0] := by
  decide

theorem witness_GuardBoundsTheAccumulator :
    guardFires 0x00FFFFFF#32 = false ∧ guardFires 0x01000000#32 = true := by decide

theorem witness_HeaderRowsRaiseOutOfBounds :
    let s := decoding .fix 1 0 [0x00]
    isHeaderRow (.fixNonzeroB3 0) = true ∧ isHeaderRow (.heightLast 0) = true ∧ s.inLen.toNat ≤ s.pos.toNat := by decide

theorem witness_TypeLastChecksTheType :
    let e := decoding .type 0 0 []
    let o := decoding .type 4 0x01000000 [0x88, 0x80, 0x80, 0x80, 0x00]
    let u := decoding .type 0 0 [0x01]
    e.inLen.toNat ≤ e.pos.toNat ∧
    (o.pos.toNat < o.inLen.toNat ∧ o.acc &&& 0xFF000000#32 ≠ 0#32) ∧
    (u.pos.toNat < u.inLen.toNat ∧ u.acc &&& 0xFF000000#32 = 0#32 ∧
      (u.acc <<< 7) ||| (1#7).setWidth 32 ≠ 0#32 ∧ (u.acc <<< 7) ||| (0#7).setWidth 32 = 0#32) := by decide

theorem witness_FixZeroEntersWidth :
    let e := decoding .fix 1 0 [0x00]
    let n := decoding .fix 1 0 [0x00, 0x00]
    e.inLen.toNat ≤ e.pos.toNat ∧ n.pos.toNat < n.inLen.toNat := by decide

theorem witness_FixNonzeroIsRejected :
    let e := decoding .fix 1 0 [0x00]
    let n := decoding .fix 1 0 [0x00, 0x80]
    (0x01#8 ≠ 0x00#8 ∧ 0xFF#8 ≠ 0x00#8) ∧ isFixNonzeroRow (.fixNonzeroB7 0) = true ∧ isFixNonzeroRow .fixNonzeroB0 = true ∧
    e.inLen.toNat ≤ e.pos.toNat ∧ n.pos.toNat < n.inLen.toNat := by decide

theorem witness_WidthLastStoresTheValue :
    let e := decoding .width 2 0 [0x00, 0x00]
    let o := decoding .width 6 0x01000000 [0x00, 0x00, 0x88, 0x80, 0x80, 0x80, 0x00]
    let n := decoding .width 6 0x00FFFFFF [0x00, 0x00, 0x87, 0xFF, 0xFF, 0xFF, 0x7F]
    e.inLen.toNat ≤ e.pos.toNat ∧ (o.pos.toNat < o.inLen.toNat ∧ o.acc &&& 0xFF000000#32 ≠ 0#32) ∧
    (n.pos.toNat < n.inLen.toNat ∧ n.acc &&& 0xFF000000#32 = 0#32) := by decide

/-- The four clauses; the dimensions at their least and greatest legal and illegal values. -/
theorem witness_HeightLastChecksDimensions :
    let e := decoding .height 3 0 [0, 0, 1]
    let o := decoding .height 7 0x01000000 [0, 0, 1, 0x88, 0x80, 0x80, 0x80, 0]
    let l : State := { decoding .height 7 0x1FF [0, 0, 0x83, 0xFF, 0x7F, 0x83, 0xFF, 0x7F] with width := 65535#32 }
    let b : State := { decoding .height 5 0x200 [0, 0, 1, 0x84, 0x80, 0x00] with width := 1#32 }
    let z : State := { decoding .height 3 0 [0, 0, 1, 0x00] with width := 1#32 }
    e.inLen.toNat ≤ e.pos.toNat ∧ (o.pos.toNat < o.inLen.toNat ∧ o.acc &&& 0xFF000000#32 ≠ 0#32) ∧
    (l.pos.toNat < l.inLen.toNat ∧ l.acc &&& 0xFF000000#32 = 0#32 ∧
      dimLegal l.width ∧ dimLegal ((l.acc <<< 7) ||| (0x7F#7).setWidth 32)) ∧
    (b.pos.toNat < b.inLen.toNat ∧ b.acc &&& 0xFF000000#32 = 0#32 ∧
      ¬(dimLegal b.width ∧ dimLegal ((b.acc <<< 7) ||| (0#7).setWidth 32))) ∧
    (z.pos.toNat < z.inLen.toNat ∧ z.acc &&& 0xFF000000#32 = 0#32 ∧
      ¬(dimLegal z.width ∧ dimLegal ((z.acc <<< 7) ||| (0#7).setWidth 32))) := by decide

theorem witness_HeaderRowsFrame :
    isHeaderRow .fixZero = true ∧ ∃ t, exec .fixZero (decoding .fix 1 0 [0x00, 0x00]) = .next t ∧
      (∀ g, Instr.fixZero ≠ .typeLast g) ∧ (∀ g, Instr.fixZero ≠ .widthLast g) ∧ (∀ g, Instr.fixZero ≠ .heightLast g) :=
  ⟨rfl, _, rfl, nofun, nofun, nofun⟩

/-- V-I4 and V-I10: 300, and a varint that denotes 2^31. -/
theorem witness_WidthVarintDenotesItsNumber :
    let s := decoding .width 2 0 [0x00, 0x00, 0x82, 0x2C]
    let o := decoding .width 2 0 [0x00, 0x00, 0x88, 0x80, 0x80, 0x80, 0x00]
    (s.runnable ∧ s.agenda = [] ∧ s.phase = .width ∧ s.acc = 0#32 ∧ s.pos.toNat + 2 ≤ s.inLen.toNat ∧
      (s.inRead 2 = 0x82#8 ∧ s.inRead 3 = 0x2C#8) ∧ varintOctets [2#7, 44#7] = [0x82#8, 0x2C#8] ∧
      groupsValue [2#7, 44#7] < 2 ^ 31) ∧
    (o.runnable ∧ o.agenda = [] ∧ o.phase = .width ∧ o.acc = 0#32 ∧ o.pos.toNat + 5 ≤ o.inLen.toNat ∧
      (o.inRead 2 = 0x88#8 ∧ o.inRead 3 = 0x80#8 ∧ o.inRead 4 = 0x80#8 ∧ o.inRead 5 = 0x80#8 ∧ o.inRead 6 = 0x00#8) ∧
      varintOctets [8#7, 0#7, 0#7, 0#7, 0#7] = [0x88#8, 0x80#8, 0x80#8, 0x80#8, 0x00#8] ∧
      groupsValue [8#7, 0#7, 0#7, 0#7, 0#7] = 2 ^ 31) := by decide

/-! ### Witnesses: the bitmap -/

theorem witness_PixelWriteStoresFourBytes : (3 : Nat) < 4 ∧ 4 < (5#34).toNat ∧ (5#34).toNat + 4 ≤ 9 := by decide

theorem witness_RowByteRaisesTruncatedBitmap :
    let s := bitmap 1 1 0 0 4 [0x00, 0x00, 0x01, 0x01]
    s.inLen.toNat ≤ s.pos.toNat := by decide

/-- A row's last octet with one active lane, and a full octet: lane and byte at their last values, the addresses just
outside. -/
theorem witness_RowByteWritesItsPixels :
    (Sound nineWide ∧ nineWide.phase = .rows ∧ nineWide.pos.toNat < nineWide.inLen.toNat ∧
      nineWide.wptr.toNat + 4 * activeLanes nineWide.width.toNat nineWide.xb.toNat ≤ nineWide.platform.outCap ∧
      nineWide.xb.toNat + 0 < nineWide.width.toNat ∧ 31 < nineWide.wptr.toNat ∧
      nineWide.wptr.toNat + 4 * activeLanes nineWide.width.toNat nineWide.xb.toNat ≤ 36) ∧
    (Sound tenWide ∧ tenWide.phase = .rows ∧ tenWide.pos.toNat < tenWide.inLen.toNat ∧
      tenWide.wptr.toNat + 4 * activeLanes tenWide.width.toNat tenWide.xb.toNat ≤ tenWide.platform.outCap ∧
      tenWide.xb.toNat + 7 < tenWide.width.toNat) :=
  ⟨⟨sound_nineWide, by decide⟩, sound_tenWide, by decide⟩

/-- In the row, at the row's end with a row to come, and at the end of the last row. -/
theorem witness_RowByteAdvances :
    (Sound tenWide ∧ tenWide.phase = .rows ∧ tenWide.pos.toNat < tenWide.inLen.toNat ∧
      tenWide.wptr.toNat + 4 * activeLanes tenWide.width.toNat tenWide.xb.toNat ≤ tenWide.platform.outCap ∧
      tenWide.xb.toNat + 8 < tenWide.width.toNat) ∧
    (Sound tenWideEnd ∧ tenWideEnd.phase = .rows ∧ tenWideEnd.pos.toNat < tenWideEnd.inLen.toNat ∧
      tenWideEnd.wptr.toNat + 4 * activeLanes tenWideEnd.width.toNat tenWideEnd.xb.toNat ≤ tenWideEnd.platform.outCap ∧
      tenWideEnd.width.toNat ≤ tenWideEnd.xb.toNat + 8 ∧ tenWideEnd.y.toNat + 1 < tenWideEnd.height.toNat) ∧
    (Sound nineWide ∧ nineWide.phase = .rows ∧ nineWide.pos.toNat < nineWide.inLen.toNat ∧
      nineWide.wptr.toNat + 4 * activeLanes nineWide.width.toNat nineWide.xb.toNat ≤ nineWide.platform.outCap ∧
      nineWide.width.toNat ≤ nineWide.xb.toNat + 8 ∧ nineWide.y.toNat + 1 = nineWide.height.toNat) :=
  ⟨⟨sound_tenWide, by decide⟩, ⟨sound_tenWideEnd, by decide⟩, sound_nineWide, by decide⟩

theorem witness_RowByteNotAdmittedIsStuck :
    Sound noRoom ∧ noRoom.phase = .rows ∧ noRoom.pos.toNat < noRoom.inLen.toNat ∧
    noRoom.platform.outCap < noRoom.wptr.toNat + 4 * activeLanes noRoom.width.toNat noRoom.xb.toNat ∧
    noRoom.runnable ∧ noRoom.agenda = [] := ⟨sound_noRoom, by decide⟩

/-- The same state with the block's turn listed. -/
theorem witness_RowByteNotAdmittedIsStuck_listed :
    let s := thenEvent noRoom .block
    Sound s ∧ s.phase = .rows ∧ s.pos.toNat < s.inLen.toNat ∧
    s.platform.outCap < s.wptr.toNat + 4 * activeLanes s.width.toNat s.xb.toNat ∧
    s.runnable ∧ s.agenda = .block :: [] :=
  ⟨sound_of_rows rfl ⟨rfl, rfl, rfl, rfl⟩ (by decide) (by decide) (by decide) (by decide), by decide⟩

theorem witness_RowByteFrame :
    (∃ t, exec (.rowByte 0x7F) nineWide = .next t) ∧ pixelWrites 0x7F nineWide = [(32#34, false)] :=
  ⟨⟨_, rfl⟩, by decide⟩

/-- Two octets that differ in all seven padding bits. -/
theorem witness_PaddingBitsHaveNoEffect :
    (∀ j, j < 8 → nineWide.xb.toNat + j < nineWide.width.toNat →
      (0x7F#8).getLsbD (7 - j) = (0x00#8).getLsbD (7 - j)) ∧ (0x7F#8) ≠ 0x00#8 := by decide

theorem witness_EndCheckNeverFails :
    nineWide.phase ≠ .error ∧ nineWide.pos.toNat < nineWide.inLen.toNat ∧
      ∃ t, exec (.rowByte 0x7F) nineWide = .next t := ⟨by decide, by decide, _, rfl⟩

theorem witness_BitmapDecodesToTheImage :
    Sound tenWide ∧ tenWide.runnable ∧ tenWide.agenda = [] ∧ tenWide.phase = .rows ∧ tenWide.y = 0#16 ∧
    tenWide.xb = 0#16 ∧ tenWide.pos.toNat + tenWide.height.toNat * rowStride tenWide.width.toNat ≤ tenWide.inLen.toNat ∧
    tenWide.width.toNat * tenWide.height.toNat * 4 ≤ tenWide.platform.outCap := ⟨sound_tenWide, by decide⟩

/-! ### Witnesses: the host's commands -/

theorem witness_ReadRegReturnsTheRegister :
    (∀ off ∈ [0x00#6, 0x04#6, 0x08#6, 0x0C#6, 0x10#6, 0x14#6, 0x18#6, 0x1C#6, 0x20#6, 0x3C#6], off.toNat % 4 = 0) ∧
    0x20 ≤ (0x20#6).toNat ∧ 0x20 ≤ (0x3C#6).toNat := by decide

theorem witness_StatusReadEndsTheDecodeForTheHost :
    State.reset.busy = false ∧ (0x04#6).toNat % 4 = 0 ∧ finished.phase = .done ∧ failedType.phase = .error ∧ failedType.sync = .pending ∧
    (nineWide.phase ≠ .done ∧ nineWide.phase ≠ .error) ∧ (0x08#6 ≠ 0x04#6 ∧ (0x08#6).toNat % 4 = 0) := by decide

theorem witness_StartBeginsADecode :
    State.reset.phase = .idle ∧ finished.phase = .done ∧ failedType.phase = .error := by decide

theorem witness_WriteInLenUnlessBusy :
    State.reset.busy = false ∧ nineWide.busy = true ∧ (∃ t, exec (.start 0#31) finished = .next t) ∧
    ∀ data, Instr.start 0#31 ≠ .writeInLen data := ⟨by decide, by decide, ⟨_, rfl⟩, nofun⟩

theorem witness_StartForgetsEarlierDecodes :
    finished.busy = false ∧ ({ State.reset with inLen := 5 } : State).busy = false ∧
    finished.inLen = ({ State.reset with inLen := 5 } : State).inLen ∧
    (∃ t, exec (.start 0#31) finished = .next t) ∧
    (∃ t, exec (.start 1#31) { State.reset with inLen := 5 } = .next t) :=
  ⟨by decide, by decide, by decide, ⟨_, rfl⟩, _, rfl⟩

/-- BUSY, an ended decode whose STATUS has not been read, one whose STATUS has been read, and a reset without a STATUS
read. -/
theorem witness_HostInputWriteOrRefusal :
    let b := thenEvent nineWide (.writeInput 0xFFFFFFFF 1)
    let p := thenEvent failedType (.writeInput 0 1)
    let f := thenEvent finished (.writeInput 0xFFFFFFFF 1)
    let r := thenEvent (resetBlock nineWide) (.writeInput 0 1)
    (b.runnable ∧ b.agenda = .writeInput 0xFFFFFFFF 1 :: [] ∧ b.busy = true) ∧
    (p.runnable ∧ p.agenda = .writeInput 0 1 :: [] ∧ p.busy = false ∧ p.sync = .pending) ∧
    (f.runnable ∧ f.agenda = .writeInput 0xFFFFFFFF 1 :: [] ∧ f.busy = false ∧ f.sync ≠ .pending) ∧
    (r.runnable ∧ r.agenda = .writeInput 0 1 :: [] ∧ r.busy = false ∧ r.sync = .abandoned) := by decide

/-- BUSY, the first byte that is ordered, and the last that is not. -/
theorem witness_HostOutputWriteOrRefusal :
    let b := thenEvent nineWide (.writeOutput 0x3FFFFFFFF 1)
    let f := thenEvent restarted (.writeOutput 4 1)
    let g := thenEvent restarted (.writeOutput 3 1)
    (b.runnable ∧ b.agenda = .writeOutput 0x3FFFFFFFF 1 :: [] ∧ (0x3FFFFFFFF#34).toNat < b.platform.outCap ∧
      b.busy = true) ∧
    (f.runnable ∧ f.agenda = .writeOutput 4 1 :: [] ∧ (4#34).toNat < f.platform.outCap ∧ f.busy = false ∧
      f.unorderedBelow ≤ (4#34).toNat) ∧
    (g.runnable ∧ g.agenda = .writeOutput 3 1 :: [] ∧ (3#34).toNat < g.platform.outCap ∧ g.busy = false ∧
      ¬g.unorderedBelow ≤ (3#34).toNat) := by decide

/-- After a STATUS read, before one, and in IDLE after a reset; the first ordered byte where some are not. -/
theorem witness_OutputReadAfterDoneIsExact :
    let s := thenEvent finished (.readOutput 3)
    let u := thenEvent finishedUnread (.readOutput 4)
    let r := thenEvent restarted (.readOutput 4)
    Sound s ∧
    (s.runnable ∧ s.agenda = .readOutput 3 :: [] ∧ (3#34).toNat < s.platform.outCap ∧ s.phase = .done ∧
      s.output.read (3#34).toNat = some 0xFF#8 ∧ s.sync = .owner) ∧
    (u.runnable ∧ u.agenda = .readOutput 4 :: [] ∧ (4#34).toNat < u.platform.outCap ∧ u.phase = .done ∧
      u.output.read (4#34).toNat = some 0x00#8 ∧ u.sync = .pending ∧ u.unorderedBelow ≤ (4#34).toNat) ∧
    (r.runnable ∧ r.agenda = .readOutput 4 :: [] ∧ (4#34).toNat < r.platform.outCap ∧ r.phase = .idle ∧
      r.output.read (4#34).toNat = some 0x00#8 ∧ r.sync = .abandoned ∧ r.unorderedBelow ≤ (4#34).toNat) :=
  ⟨sound_of_done rfl ⟨rfl, rfl, rfl⟩ rfl (by decide) (by decide) (by decide), by decide⟩

/-- BUSY, in ERROR, after a reset from ERROR with STATUS read and without, and the last byte that is not ordered. -/
theorem witness_OutputReadBeforeDoneIsADraw :
    let s := thenEvent nineWide (.readOutput 0)
    let e := thenEvent failedType (.readOutput 0x3FFFFFFFF)
    let f := thenEvent (resetBlock { failedType with sync := .failed }) (.readOutput 0)
    let g := thenEvent (resetBlock failedType) (.readOutput 0)
    let u := thenEvent finishedUnread (.readOutput 3)
    (s.runnable ∧ s.agenda = .readOutput 0 :: [] ∧ (0#34).toNat < s.platform.outCap ∧ s.busy = true) ∧
    (e.runnable ∧ e.agenda = .readOutput 0x3FFFFFFFF :: [] ∧ (0x3FFFFFFFF#34).toNat < e.platform.outCap ∧
      e.phase = .error) ∧
    (f.runnable ∧ f.agenda = .readOutput 0 :: [] ∧ (0#34).toNat < f.platform.outCap ∧ f.sync = .failed) ∧
    (g.runnable ∧ g.agenda = .readOutput 0 :: [] ∧ (0#34).toNat < g.platform.outCap ∧ g.sync = .failedUnread) ∧
    (u.runnable ∧ u.agenda = .readOutput 3 :: [] ∧ (3#34).toNat < u.platform.outCap ∧
      (3#34).toNat < u.unorderedBelow) := by decide

theorem witness_UnbackedOutputAccessFaults :
    let r := thenEvent noRoom (.readOutput 3)
    let w := thenEvent noRoom (.writeOutput 3 0)
    (r.runnable ∧ r.agenda = .readOutput 3 :: [] ∧ r.platform.outCap ≤ (3#34).toNat) ∧
    (w.runnable ∧ w.agenda = .writeOutput 3 0 :: [] ∧ w.platform.outCap ≤ (3#34).toNat) := by decide

/-! ### Witnesses: the whole machine -/

theorem witness_ResetSetsEveryRegister :
    (thenEvent nineWide .reset).runnable ∧ (thenEvent nineWide .reset).agenda = .reset :: [] := by decide

/-- What `after` answers is a field of the step's next state. -/
theorem next_of_after {α : Type} {a : Answer} {f : State → α} {v : α} (h : after a f = some v) :
    ∃ t, a = .next t ∧ f t = v := by
  cases a with
  | next t => exact ⟨t, rfl, Option.some.inj h⟩
  | fault r => cases h
  | refused r => cases h

/-- The host writes IN_LEN while the block is BUSY. -/
theorem witness_StartWhileBusyIsIgnored :
    let s := thenEvent nineWide (.register true 0x0C 4 9)
    s.busy = true ∧ s.agenda = .register true 0x0C 4 9 :: [] ∧
    HostEvent.register true 0x0C 4 9 ≠ .block ∧ HostEvent.register true 0x0C 4 9 ≠ .reset ∧
    ∃ t, step s = .next t ∧ t.inLen = 6#32 :=
  ⟨by decide, rfl, by decide, by decide, next_of_after (f := State.inLen) (by decide)⟩

theorem witness_StepKeepsTheInvariant : Sound nineWide ∧ ∃ t, step nineWide = .next t ∧ t.phase = .done :=
  ⟨sound_nineWide, next_of_after (f := State.phase) (by decide)⟩

/-- ROW_BYTE changes byte 35, and the agenda holds no host access. -/
theorem witness_UnorderedBytesCoverTheBlocksWrites :
    Sound nineWide ∧ (∃ t, step nineWide = .next t ∧ t.output.read 35 = some 0xFF) ∧
    nineWide.output.read 35 = none ∧ (∀ a b rest, nineWide.agenda ≠ .writeOutput a b :: rest) ∧
    (∀ data rest, nineWide.agenda ≠ .register false 0x04 4 data :: rest) ∧
    (nineWide.phase ≠ .done ∧ nineWide.phase ≠ .error) :=
  ⟨sound_nineWide, next_of_after (f := fun t => t.output.read 35) (by decide), by decide, nofun, nofun, by decide⟩

/-- START leaves IDLE, and reset leaves DONE. -/
theorem witness_OnlyStartAndResetLeaveRest :
    (∃ t, step (thenEvent State.reset (.register true 0 4 1)) = .next t ∧ t.phase = .type) ∧
    State.reset.phase = .idle ∧
    (∃ t, step (thenEvent finished .reset) = .next t ∧ t.phase = .idle) ∧ finished.phase = .done :=
  ⟨next_of_after (f := State.phase) (by decide), rfl, next_of_after (f := State.phase) (by decide), rfl⟩

theorem witness_OnlyTheHostWritesTheInput :
    (∃ t, step nineWide = .next t ∧ t.phase = .done) ∧ ∀ a b rest, nineWide.agenda ≠ .writeInput a b :: rest :=
  ⟨next_of_after (f := State.phase) (by decide), nofun⟩

theorem witness_BufferIsConstantDuringADecode :
    nineWide.busy = true ∧ (∃ t, step nineWide = .next t ∧ t.phase = .done) ∧
      ∀ rest, nineWide.agenda ≠ .reset :: rest := ⟨by decide, next_of_after (f := State.phase) (by decide), nofun⟩

/-- The cursor moves, and it stays where a step is not admitted. -/
theorem witness_CursorOnlyAdvancesByOne :
    (nineWide.busy = true ∧ (∃ t, step nineWide = .next t ∧ t.pos = 6#32) ∧
      ∀ rest, nineWide.agenda ≠ .reset :: rest) ∧
    (noRoom.busy = true ∧ (∃ t, step noRoom = .next t ∧ t.pos = 4#32) ∧ ∀ rest, noRoom.agenda ≠ .reset :: rest) :=
  ⟨⟨by decide, next_of_after (f := State.pos) (by decide), nofun⟩, by decide,
    next_of_after (f := State.pos) (by decide), nofun⟩

/-- An input that differs in every octet but the one at POS. -/
theorem witness_OtherInputOctetsHaveNoEffect :
    nineWide.agenda = [] ∧ Memory.read [(5, 0x7F#8)] nineWide.pos.toNat = nineWide.input.read nineWide.pos.toNat ∧
    ∃ t, step nineWide = .next t ∧ t.phase = .done :=
  ⟨rfl, by decide, next_of_after (f := State.phase) (by decide)⟩

theorem witness_OutputSpaceMovesNoRegister :
    nineWide.agenda = [] ∧ ∃ t, step nineWide = .next t ∧ t.phase = .done :=
  ⟨rfl, next_of_after (f := State.phase) (by decide)⟩

theorem witness_OnlyNamedHostAccessesStop : Sound nineWide ∧ nineWide.spacesDisjoint = true :=
  ⟨sound_nineWide, by decide⟩

theorem witness_EveryDecodeEnds :
    Sound tenWide ∧ tenWide.runnable ∧ tenWide.agenda = [] ∧ tenWide.busy = true ∧
    17179344900 ≤ tenWide.platform.outCap := ⟨sound_tenWide, by decide⟩

end Sys2Proof.Tests
end

section
/-! PROOFS. What one step of the machine can be: the moves of the block, and the moves of an entry of the agenda. Every
rule of 10_state.md about all steps is a case analysis on them. -/

namespace Sys2Proof.Machine

/-- The moves of the block (30_encoding.md R80): at rest, at the end of the input, or one row in a phase that selects
it. -/
inductive BlockMove (s : State) : State → Prop where
  | rest (hb : s.busy = false) : BlockMove s s
  | endOfInput (hb : s.busy = true) (he : s.inLen.toNat ≤ s.pos.toNat) :
      BlockMove s (raise (if s.phase = .rows then .truncatedBitmap else .outOfBounds) s)
  | varintCont (g : BitVec 7) (hi : s.pos.toNat < s.inLen.toNat)
      (hp : s.phase = .type ∨ s.phase = .width ∨ s.phase = .height) : BlockMove s (varintContinue g s)
  | typeLast (g : BitVec 7) (hi : s.pos.toNat < s.inLen.toNat) (hp : s.phase = .type) :
      BlockMove s (varintLast g s acceptType)
  | fixZero (hi : s.pos.toNat < s.inLen.toNat) (hp : s.phase = .fix) :
      BlockMove s (withOctet .outOfBounds s fun s1 => { s1 with phase := .width })
  | fixNonzero (hi : s.pos.toNat < s.inLen.toNat) (hp : s.phase = .fix) : BlockMove s (fixNonzero s)
  | widthLast (g : BitVec 7) (hi : s.pos.toNat < s.inLen.toNat) (hp : s.phase = .width) :
      BlockMove s (varintLast g s acceptWidth)
  | heightLast (g : BitVec 7) (hi : s.pos.toNat < s.inLen.toNat) (hp : s.phase = .height) :
      BlockMove s (varintLast g s acceptHeight)
  | rowByte (p : Byte) (hi : s.pos.toNat < s.inLen.toNat) (hp : s.phase = .rows) : BlockMove s (unpackOctet p s)

/-- The block's turn always answers a next state, by one of its moves. -/
theorem exists_blockMove (s : State) : ∃ t, blockStep s = .next t ∧ BlockMove s t := by
  obtain ⟨hb, e⟩ | ⟨hb, he, e⟩ | ⟨-, hi, i, hd, e⟩ := blockStep_cases s
  · exact ⟨s, e, .rest hb⟩
  · exact ⟨_, e, .endOfInput hb he⟩
  · obtain ⟨hp, ⟨-, rfl⟩ | ⟨-, rfl⟩⟩ | ⟨hp, rfl | hn⟩ | ⟨hp, ⟨-, rfl⟩ | ⟨-, rfl⟩⟩ | ⟨hp, ⟨-, rfl⟩ | ⟨-, rfl⟩⟩ |
      ⟨hp, rfl⟩ := decodeOctet_rows hd
    · exact ⟨_, e, .varintCont _ hi (.inl hp)⟩
    · exact ⟨_, e, .typeLast _ hi hp⟩
    · exact ⟨_, e, .fixZero hi hp⟩
    · exact ⟨_, e.trans (exec_fixNonzero hn s), .fixNonzero hi hp⟩
    · exact ⟨_, e, .varintCont _ hi (.inr (.inl hp))⟩
    · exact ⟨_, e, .widthLast _ hi hp⟩
    · exact ⟨_, e, .varintCont _ hi (.inr (.inr hp))⟩
    · exact ⟨_, e, .heightLast _ hi hp⟩
    · exact ⟨_, e, .rowByte _ hi hp⟩

theorem blockMove_of_blockStep {s t : State} (h : blockStep s = .next t) : BlockMove s t := by
  obtain ⟨t', e, hm⟩ := exists_blockMove s
  rw [h] at e
  cases e
  exact hm

/-- The moves of one entry of the agenda: the block's turn, reset, and the host's accesses that answer a next state
(43_host.md R161 to R166, 20_memory.md R50, R61, R62). -/
inductive EventMove (s : State) : HostEvent → State → Prop where
  | block {t : State} (h : blockStep s = .next t) : EventMove s .block t
  | reset : EventMove s .reset (resetBlock s)
  | readWindow (offset bytes : Nat) (data : Word) :
      EventMove s (.register false offset bytes data) (hostReadWord (BitVec.ofNat 6 offset) s)
  | ignoredWrite (offset bytes : Nat) (data : Word) : EventMove s (.register true offset bytes data) s
  | setInLen (offset bytes : Nat) (data : Word) (hb : s.busy = false) :
      EventMove s (.register true offset bytes data) { s with inLen := data }
  | start (data : Word) (hb : s.busy = false) (hd : data.getLsbD 0 = true) :
      EventMove s (.register true 0 4 data) (startDecode s)
  | writeInput (a : InAddr) (b : Byte) (hb : s.busy = false) :
      EventMove s (.writeInput a b) { s with input := s.input.write a.toNat b }
  | readInput (a : InAddr) (w : Word) (n : Nat) : EventMove s (.readInput a) { s with rdata := w, draws := n }
  | writeOutput (a : OutAddr) (b v : Byte) (n : Nat) (ha : a.toNat < s.platform.outCap) (hb : s.busy = false) :
      EventMove s (.writeOutput a b) { s with output := s.output.write a.toNat v, draws := n }
  | readOutput (a : OutAddr) (w : Word) (n : Nat) : EventMove s (.readOutput a) { s with rdata := w, draws := n }

theorem exec_start_resting {s : State} (hb : s.busy = false) (ign : BitVec 31) :
    exec (.start ign) s = .next (startDecode s) := by
  simp [exec, execStart, hb]

theorem exec_start_busy {s : State} (hb : s.busy = true) (ign : BitVec 31) : exec (.start ign) s = .next s := by
  simp [exec, execStart, hb]

theorem exec_writeInLen_resting {s : State} (hb : s.busy = false) (data : Word) :
    exec (.writeInLen data) s = .next { s with inLen := data } := by
  simp [exec, execWriteInLen, hb]

theorem exec_writeInLen_busy {s : State} (hb : s.busy = true) (data : Word) :
    exec (.writeInLen data) s = .next s := by
  simp [exec, execWriteInLen, hb]

theorem exec_readReg_next {s t : State} {off : BitVec 6} {data : Word} (h : exec (.readReg off data) s = .next t) :
    t = hostReadWord off s := by
  simp only [exec, execReadReg] at h
  split at h
  · exact (Host.Outcome.next.inj h).symm
  · cases h

/-- A host write to the register window that answers a next state. -/
theorem eventMove_of_registerWrite {s t : State} {offset bytes : Nat} {data : Word}
    (h : registerAccess true offset bytes data s = .next t) :
    EventMove s (.register true offset bytes data) t := by
  obtain ⟨-, e⟩ | ⟨rfl, -, ho, e⟩ := registerAccess_cases true offset bytes data s
  · rw [e] at h; cases h
  rw [if_pos rfl] at e
  rw [e] at h
  have ignored (h : (.next s : Answer) = .next t) : EventMove s (.register true offset 4 data) t := by
    cases h
    exact .ignoredWrite _ _ _
  obtain ⟨h0, hd, hw⟩ | ⟨-, -, hw⟩ | hw | hw | hw | hw | hw := decodeHostWrite_rows (BitVec.ofNat 6 offset) data <;>
    rw [hw] at h
  · obtain rfl : offset = 0 := by
      have h0 : offset % 64 = 0 := congrArg BitVec.toNat h0
      omega
    cases hb : s.busy
    · rw [exec_start_resting hb] at h
      cases h
      exact .start data hb hd
    · exact ignored (exec_start_busy hb _ ▸ h)
  · exact ignored h
  · exact ignored h
  · exact ignored h
  · cases hb : s.busy
    · rw [exec_writeInLen_resting hb] at h
      cases h
      exact .setInLen _ _ data hb
    · exact ignored (exec_writeInLen_busy hb _ ▸ h)
  · exact ignored h
  · exact ignored h

theorem eventMove_of_registerRead {s t : State} {offset bytes : Nat} {data : Word}
    (h : registerAccess false offset bytes data s = .next t) :
    EventMove s (.register false offset bytes data) t := by
  obtain ⟨-, e⟩ | ⟨-, -, -, e⟩ := registerAccess_cases false offset bytes data s <;> rw [e] at h
  · cases h
  · obtain rfl := exec_readReg_next h
    exact .readWindow _ _ _

theorem not_busy_of_not_outstanding {s : State} (h : ¬s.decodeOutstanding = true) : s.busy = false := by
  simp only [State.decodeOutstanding, Bool.or_eq_true, not_or, Bool.not_eq_true] at h
  exact h.1

theorem eventMove_of_runEvent {s t : State} {e : HostEvent} (h : runEvent e s = .next t) : EventMove s e t := by
  cases e with
  | block => exact .block h
  | reset => cases h; exact .reset
  | register wr offset bytes data =>
    cases wr
    · exact eventMove_of_registerRead h
    · exact eventMove_of_registerWrite h
  | writeInput a b =>
    simp only [runEvent, hostWriteInput] at h
    split at h
    · cases h
    · cases h
      exact .writeInput a b (not_busy_of_not_outstanding ‹_›)
  | readInput a =>
    simp only [runEvent, hostReadInput] at h
    split at h <;> cases h <;> exact .readInput a _ _
  | writeOutput a b =>
    simp only [runEvent, hostWriteOutput] at h
    split at h
    · cases h
    · split at h
      · cases h
      · split at h <;> cases h <;>
          exact .writeOutput a b _ _ (Nat.lt_of_not_le ‹_›) (Bool.eq_false_of_not_eq_true ‹_›)
  | readOutput a =>
    simp only [runEvent, hostReadOutput] at h
    split at h
    · cases h
    · split at h <;> cases h <;> exact .readOutput a _ _

/-- A step that answers a next state is the block's turn or the move of the agenda's head. -/
theorem step_moves {s t : State} (h : step s = .next t) :
    (s.agenda = [] ∧ blockStep s = .next t) ∨
      ∃ e rest, s.agenda = e :: rest ∧ EventMove { s with agenda := rest } e t := by
  obtain ⟨-, ⟨ha, hs⟩ | ⟨e, rest, ha, he⟩⟩ := step_next h
  · exact .inl ⟨ha, hs⟩
  · exact .inr ⟨e, rest, ha, eventMove_of_runEvent he⟩

end Sys2Proof.Machine
end

section
/-! PROOFS. Which updates of the state keep the invariant (10_state.md R23 to R29). -/

namespace Sys2Proof.Machine

/-! ### States at rest, and updates of one part of the state -/

/-- A state whose registers are those of reset is sound as soon as its memories are. -/
theorem sound_of_registers_atReset {s : State} (hr : s.registers = Registers.atReset)
    (hm : s.input.within (2 ^ 32) ∧ s.output.within s.platform.outCap)
    (hu : s.sync = .owner ∨ s.sync = .failed → s.unseen = 0) : Sound s := by
  obtain ⟨hp, hpos, hacc, htype, hw, hh, hy, hx, hwp, he, -⟩ := Registers.mk.inj hr
  have hb : s.busy = false := resting_not_busy (.inl hp)
  exact {
    input_wf := hm.1.1
    output_wf := hm.2.1
    input_addr := hm.1.2
    output_addr := hm.2.2
    pos_le := by simp [hb]
    acc_lt := by simp [hacc]
    acc_zero := fun _ => hacc
    imgType_lt := by simp [htype]
    width_lt := by simp [hw]
    height_lt := by simp [hh]
    err_iff := by simp [he, hp]
    err_legal := by simp [he]
    type_zero := fun _ => htype
    dims := by simp [hp]
    rows_at := by simp [hp]
    done_at := by simp [hp]
    header_at := by simp [hp, inHeader]
    seen_all := hu
    sync_busy := by simp [hb] }

theorem Sound.memories {s : State} (h : Sound s) :
    s.input.within (2 ^ 32) ∧ s.output.within s.platform.outCap :=
  ⟨⟨h.input_wf, h.input_addr⟩, h.output_wf, h.output_addr⟩

/-- The invariant does not speak of the agenda, the host's datum or the draws. -/
theorem Sound.withHostFields {s : State} (h : Sound s) (rest : List HostEvent) (w : Word) (n : Nat) :
    Sound { s with agenda := rest, rdata := w, draws := n } := { h with }

theorem Sound.withInput {s : State} (h : Sound s) (a : InAddr) (b : Byte) :
    Sound { s with input := s.input.write a.toNat b } :=
  { h with
    input_wf := write_wf h.input_wf _ _
    input_addr := write_addr h.input_addr a.isLt _ }

theorem Sound.withOutput {s : State} (h : Sound s) {a : Nat} (ha : a < s.platform.outCap) (b : Byte) :
    Sound { s with output := s.output.write a b } :=
  { h with
    output_wf := write_wf h.output_wf _ _
    output_addr := write_addr h.output_addr ha _ }

theorem Sound.withInLen {s : State} (h : Sound s) (hb : s.busy = false) (n : Word) : Sound { s with inLen := n } :=
  { h with pos_le := fun hb' => absurd (hb.symm.trans hb') Bool.false_ne_true }

/-! ### The host's commands and reset -/

theorem Sound.startDecode {s : State} (h : Sound s) : Sound (startDecode s) :=
  { h with
    pos_le := fun _ => Nat.zero_le _
    acc_lt := by simp
    acc_zero := fun _ => rfl
    imgType_lt := by simp
    width_lt := by simp
    height_lt := by simp
    err_iff := by simp
    err_legal := by simp
    type_zero := fun _ => rfl
    dims := by simp
    rows_at := by simp
    done_at := by simp
    header_at := fun _ => ⟨rfl, rfl, rfl⟩
    seen_all := by simp
    sync_busy := fun _ => rfl }

theorem syncAfterReset_seen {s : State} (h : syncAfterReset s = .owner ∨ syncAfterReset s = .failed) :
    s.sync = .owner ∨ s.sync = .failed := by
  cases hs : s.sync <;> cases he : s.err <;> simp [syncAfterReset, hs, he] at h ⊢

theorem unorderedBelow_of_seen {s : State} (h : s.sync = .owner ∨ s.sync = .failed) :
    s.unorderedBelow = s.unseen := by
  rcases h with h | h <;> simp [State.unorderedBelow, h]

theorem Sound.resetBlock {s : State} (h : Sound s) : Sound (resetBlock s) := by
  refine sound_of_registers_atReset rfl h.memories fun hs => ?_
  have hs : s.sync = .owner ∨ s.sync = .failed := syncAfterReset_seen hs
  exact (unorderedBelow_of_seen hs).trans (h.seen_all hs)

theorem syncAfterStatus_busy {s : State} (hb : s.busy = true) : syncAfterStatus s = s.sync := by
  cases hp : s.phase <;> simp_all [State.busy, phaseBusy, syncAfterStatus]

/-- A read of STATUS that finds DONE or ERR leaves nothing unseen, and any other leaves what was (20_memory.md R63). -/
theorem unseenAfterStatus_seen {s : State} (h : Sound s)
    (hs : syncAfterStatus s = .owner ∨ syncAfterStatus s = .failed) : unseenAfterStatus s = 0 := by
  by_cases hp : s.phase = .done ∨ s.phase = .error
  · rcases hp with hp | hp <;> simp [unseenAfterStatus, State.done, State.err, hp]
  · have hs' : syncAfterStatus s = s.sync := by
      cases hq : s.phase <;> simp_all [syncAfterStatus]
    simp [unseenAfterStatus, h.seen_all (hs' ▸ hs)]

theorem Sound.hostReadWord {s : State} (h : Sound s) (off : BitVec 6) : Sound (hostReadWord off s) :=
  { h with
    seen_all := by
      rw [hostReadWord_sync, hostReadWord_unseen]
      split
      · exact unseenAfterStatus_seen h
      · exact h.seen_all
    sync_busy := fun hb => by
      rw [hostReadWord_sync, syncAfterStatus_busy (s := s) hb, ite_self]
      exact h.sync_busy hb }

/-! ### The block's shared operations -/

theorem Sound.raise {s : State} (h : Sound s) (k : ErrKind) : Sound (raise k s) :=
  { h with
    pos_le := by simp [State.busy, phaseBusy]
    acc_zero := by simp [betweenVarints]
    err_iff := by simp [code_ne_zero]
    err_legal := code_ne_seven k
    type_zero := by simp [typeAccepted]
    dims := by simp
    rows_at := by simp
    done_at := by simp
    header_at := by simp [inHeader]
    sync_busy := by simp [State.busy, phaseBusy] }

theorem Sound.pos_succ {s : State} (h : Sound s) (hp : s.pos.toNat < s.inLen.toNat) :
    Sound { s with pos := s.pos + 1#32 } :=
  { h with
    pos_le := fun _ => by
      show (s.pos + 1#32).toNat ≤ s.inLen.toNat
      rw [Machine.pos_succ hp]
      exact hp }

/-- Inside a varint ACC may hold any value below 2^31 (10_state.md R24). -/
theorem Sound.withAcc {s : State} (h : Sound s) {v : Word} (hv : v.toNat < 2 ^ 31)
    (hz : betweenVarints s.phase = true → v = 0#32) : Sound { s with acc := v } :=
  { h with
    acc_lt := hv
    acc_zero := hz }

/-- The guard passes only accumulators below 2^24 (40_bytecursor.md R102). -/
theorem acc_lt_of_not_guardFires {acc : Word} (h : guardFires acc = false) : acc.toNat < 2 ^ 24 := by
  have hz : acc &&& accGuardMask = 0#32 := by simpa [guardFires] using h
  have hmask : ∀ i : Fin 32, 24 ≤ i.val → accGuardMask.getLsbD i = true := by decide
  refine Nat.lt_pow_two_of_testBit acc.toNat fun i hi => ?_
  by_cases h32 : i < 32
  · have hbit : (acc &&& accGuardMask).getLsbD i = false := by rw [hz]; simp
    rw [BitVec.getLsbD_and, hmask ⟨i, h32⟩ hi, Bool.and_true] at hbit
    exact hbit
  · exact BitVec.getLsbD_of_ge acc i (Nat.le_of_not_lt h32)

theorem accumulate_toNat {acc : Word} (h : acc.toNat < 2 ^ 24) (g : BitVec 7) :
    (accumulate acc g).toNat = acc.toNat * 128 + g.toNat := by
  have hg := g.isLt
  have hshift : (acc <<< 7).toNat = acc.toNat <<< 7 := by
    rw [BitVec.toNat_shiftLeft, Nat.shiftLeft_eq, Nat.mod_eq_of_lt (by omega)]
  have hgroup : (g.setWidth 32).toNat = g.toNat := by
    rw [BitVec.toNat_setWidth, Nat.mod_eq_of_lt (by omega)]
  rw [accumulate, BitVec.toNat_or, hshift, hgroup, ← Nat.shiftLeft_add_eq_or_of_lt hg, Nat.shiftLeft_eq]

theorem accumulate_lt {acc : Word} (h : guardFires acc = false) (g : BitVec 7) :
    (accumulate acc g).toNat < 2 ^ 31 := by
  have hacc := acc_lt_of_not_guardFires h
  have hg := g.isLt
  rw [accumulate_toNat hacc]
  omega

theorem Sound.withOctet {s : State} (h : Sound s) (eof : ErrKind) {k : State → State}
    (hk : Sound { s with pos := s.pos + 1#32 } → Sound (k { s with pos := s.pos + 1#32 })) :
    Sound (withOctet eof s k) := by
  obtain ⟨-, e⟩ | ⟨hp, e⟩ := withOctet_cases eof s k <;> rw [e]
  · exact h.raise eof
  · exact hk (h.pos_succ hp)

theorem Sound.withGroup {s : State} (h : Sound s) (g : BitVec 7) {k : Word → State → State}
    (hk : ∀ v : Word, v.toNat < 2 ^ 31 → Sound { s with pos := s.pos + 1#32 } →
      Sound (k v { s with pos := s.pos + 1#32 })) : Sound (withGroup g s k) := by
  obtain ⟨-, e⟩ | ⟨hp, -, e⟩ | ⟨hp, hg, e⟩ := withGroup_cases g s k <;> rw [e]
  · exact h.raise _
  · exact (h.pos_succ hp).raise _
  · exact hk _ (accumulate_lt hg g) (h.pos_succ hp)

theorem Sound.varintContinue {s : State} (h : Sound s) (g : BitVec 7) (hp : betweenVarints s.phase = false) :
    Sound (varintContinue g s) :=
  h.withGroup g fun _ hv h1 => h1.withAcc hv fun hz => absurd (hp.symm.trans hz) Bool.false_ne_true

/-- A last octet keeps the invariant when the phase's own rule keeps it of a state in the same phase with ACC = 0. -/
theorem Sound.varintLast {s : State} (h : Sound s) (g : BitVec 7) {k : Word → State → State}
    (hk : ∀ (v : Word) (s1 : State), v.toNat < 2 ^ 31 → Sound s1 → s1.acc = 0#32 → s1.phase = s.phase →
      Sound (k v s1)) : Sound (varintLast g s k) :=
  h.withGroup g fun v hv h1 => hk v _ hv (h1.withAcc (by decide) fun _ => rfl) rfl rfl

/-! ### The header -/

theorem busy_of_inHeader {s : State} (hp : inHeader s.phase = true) : s.busy = true := by
  cases h : s.phase <;> simp_all [inHeader, State.busy, phaseBusy]

theorem Sound.errcode_zero {s : State} (h : Sound s) (hp : s.phase ≠ .error) : s.errcode = 0#3 :=
  not_not.mp (mt h.err_iff.mp hp)

/-- One header phase follows another with ACC = 0 and an accepted image type (41_header.md R120). -/
theorem Sound.toHeaderPhase {s : State} {ph : Phase} (h : Sound s) (hp : inHeader s.phase = true)
    (hph : inHeader ph = true) (hacc : s.acc = 0#32) (htype : s.imgType = 0#32) : Sound { s with phase := ph } := by
  have hne : s.phase ≠ .error := by rintro he; simp [he, inHeader] at hp
  have hne' : ph ≠ .error ∧ ph ≠ .rows ∧ ph ≠ .done := by refine ⟨?_, ?_, ?_⟩ <;> rintro rfl <;> cases hph
  have hb := busy_of_inHeader hp
  exact { h with
    pos_le := fun _ => h.pos_le hb
    acc_zero := fun _ => hacc
    err_iff := by simp [h.errcode_zero hne, hne'.1]
    type_zero := fun _ => htype
    dims := by simp [hne']
    rows_at := by simp [hne']
    done_at := by simp [hne']
    header_at := fun _ => h.header_at hp
    sync_busy := fun _ => h.sync_busy hb }

/-- WIDTH and HEIGHT are unchecked in the header (41_header.md R128, R131). -/
theorem Sound.withDims {s : State} {w d : Word} (h : Sound s) (hp : inHeader s.phase = true)
    (hw : w.toNat < 2 ^ 31) (hd : d.toNat < 2 ^ 31) : Sound { s with width := w, height := d } := by
  have hne : s.phase ≠ .rows ∧ s.phase ≠ .done := by constructor <;> intro he <;> simp [he, inHeader] at hp
  exact { h with
    width_lt := hw
    height_lt := hd
    dims := by simp [hne]
    rows_at := by simp [hne]
    done_at := by simp [hne] }

/-- IMG_TYPE is unchecked before its phase ends (41_header.md R123). -/
theorem Sound.withImgType {s : State} {v : Word} (h : Sound s) (hp : s.phase = .type) (hv : v.toNat < 2 ^ 31) :
    Sound { s with imgType := v } :=
  { h with
    imgType_lt := hv
    type_zero := by simp [hp, typeAccepted] }

theorem Sound.acceptType {s : State} {v : Word} (h : Sound s) (hv : v.toNat < 2 ^ 31) (hacc : s.acc = 0#32)
    (hp : s.phase = .type) : Sound (acceptType v s) := by
  have h1 := h.withImgType hp hv
  unfold Machine.acceptType
  by_cases ht : v = supportedType
  · rw [if_neg (not_not.mpr ht)]
    exact h1.toHeaderPhase (by rw [hp]; rfl) rfl hacc ht
  · rw [if_pos ht]
    exact h1.raise _

theorem Sound.acceptWidth {s : State} {v : Word} (h : Sound s) (hv : v.toNat < 2 ^ 31) (hacc : s.acc = 0#32)
    (hp : s.phase = .width) : Sound (acceptWidth v s) := by
  have hh : inHeader s.phase = true := by rw [hp]; rfl
  exact (h.withDims hh hv h.height_lt).toHeaderPhase hh rfl hacc (h.type_zero (by rw [hp]; rfl))

/-- The dimension check enters ROWS at the first pixel (41_header.md R134). -/
theorem Sound.acceptHeight {s : State} {v : Word} (h : Sound s) (hv : v.toNat < 2 ^ 31) (hacc : s.acc = 0#32)
    (hp : s.phase = .height) : Sound (acceptHeight v s) := by
  have hh : inHeader s.phase = true := by rw [hp]; rfl
  have hb := busy_of_inHeader hh
  have h1 := h.withDims hh h.width_lt hv
  unfold Machine.acceptHeight
  by_cases hd : dimLegal s.width ∧ dimLegal v
  · rw [dimensionCheck_legal _ hd]
    refine sound_of_rows rfl ⟨hacc, h.type_zero (by rw [hp]; rfl), h.errcode_zero (by simp [hp]), h.sync_busy hb⟩
      h.memories (h.pos_le hb) hd ⟨hd.2.1, rfl, hd.1.1, ?_⟩
    simp
  · rw [dimensionCheck_illegal _ hd]
    exact h1.raise _

/-! ### The bitmap -/

theorem laneActive_iff (width : Word) (xb : BitVec 16) {j : Nat} (hj : j < 8) :
    laneActive width xb j = true ↔ xb.toNat + j < width.toNat := by
  have hx := xb.isLt
  have hc : (laneColumn xb j).toNat = xb.toNat + j := by
    simp only [laneColumn, BitVec.toNat_add, BitVec.toNat_setWidth, BitVec.toNat_ofNat]
    omega
  simp [laneActive, hc]

theorem emitLanes_length (width : Word) (xb : BitVec 16) (p : Byte) (js : List Nat) (wp : OutAddr) :
    (emitLanes width xb p js wp).length = js.countP (laneActive width xb) := by
  induction js generalizing wp with
  | nil => rfl
  | cons j js ih =>
    unfold emitLanes
    cases hj : laneActive width xb j <;> simp [hj, ih]

theorem countP_range_add_lt (a b n : Nat) : (List.range n).countP (fun j => a + j < b) = min n (b - a) := by
  induction n with
  | zero => simp
  | succ n ih =>
    rw [List.range_succ, List.countP_append, ih, List.countP_singleton]
    simp only [decide_eq_true_eq]
    split <;> omega

/-- An octet's pixels are as many as its active lanes (42_unpack.md R146). -/
theorem pixelWrites_length (p : Byte) (s : State) :
    (pixelWrites p s).length = activeLanes s.width.toNat s.xb.toNat := by
  rw [pixelWrites, emitLanes_length]
  have hl (j : Nat) (hj : j ∈ List.range 8) :
      laneActive s.width s.xb j = true ↔ decide (s.xb.toNat + j < s.width.toNat) = true := by
    rw [decide_eq_true_iff]
    exact laneActive_iff _ _ (List.mem_range.mp hj)
  exact (List.countP_congr hl).trans (countP_range_add_lt _ _ 8)

/-- The image's last byte lies below 2^34, so WPTR never wraps (10_state.md R28). -/
theorem row_end_lt {s : State} (h : Sound s) (hp : s.phase = .rows) :
    (s.y.toNat * s.width.toNat + s.width.toNat) * 4 < 2 ^ 34 := by
  obtain ⟨⟨-, hw⟩, -, hh⟩ := h.dims (.inl hp)
  have hy := (h.rows_at hp).1
  have := Nat.mul_le_mul (show s.y.toNat + 1 ≤ 65535 by omega) hw
  rw [Nat.succ_mul] at this
  omega

/-- The write position after one octet's pixels (42_unpack.md R141). -/
theorem writePixels_wptr_toNat {s : State} (h : Sound s) (hp : s.phase = .rows) (p : Byte) :
    (s.wptr + BitVec.ofNat 34 (4 * (pixelWrites p s).length)).toNat =
      (s.y.toNat * s.width.toNat + s.xb.toNat + activeLanes s.width.toNat s.xb.toNat) * 4 := by
  obtain ⟨-, -, hx, hw⟩ := h.rows_at hp
  have hlt := row_end_lt h hp
  have hl : activeLanes s.width.toNat s.xb.toNat ≤ s.width.toNat - s.xb.toNat := Nat.min_le_right _ _
  rw [BitVec.toNat_add, BitVec.toNat_ofNat, hw, pixelWrites_length]
  omega

/-- After the last octet of the last row the block is in DONE, the write position past the image (42_unpack.md R143,
R144, R147 item 4). -/
theorem Sound.toDone {s : State} {m : Memory} {y : BitVec 16} {wp : OutAddr} (h : Sound s) (hp : s.phase = .rows)
    (hm : m.within s.platform.outCap) (hy : y.toNat = s.height.toNat)
    (hw : wp.toNat = s.width.toNat * s.height.toNat * 4) :
    Sound { s with output := m, y := y, xb := 0#16, wptr := wp, phase := .done } :=
  have hb : s.busy = true := by simp [State.busy, hp, phaseBusy]
  { h with
    output_wf := hm.1
    output_addr := hm.2
    pos_le := by simp [State.busy, phaseBusy]
    acc_zero := fun _ => h.acc_zero (by rw [hp]; rfl)
    err_iff := by simp [h.errcode_zero (by simp [hp])]
    type_zero := fun _ => h.type_zero (by rw [hp]; rfl)
    dims := fun _ => h.dims (.inl hp)
    rows_at := by simp
    done_at := fun _ => ⟨hy, rfl, hw⟩
    header_at := by simp [inHeader]
    sync_busy := by simp [State.busy, phaseBusy] }

theorem Sound.withinRows {s : State} {m : Memory} {y xb : BitVec 16} {wp : OutAddr} (h : Sound s) (hp : s.phase = .rows)
    (hm : m.within s.platform.outCap)
    (hat : y.toNat < s.height.toNat ∧ xb.toNat % 8 = 0 ∧ xb.toNat < s.width.toNat ∧
      wp.toNat = (y.toNat * s.width.toNat + xb.toNat) * 4) :
    Sound { s with output := m, y := y, xb := xb, wptr := wp } :=
  { h with
    output_wf := hm.1
    output_addr := hm.2
    rows_at := fun _ => hat
    done_at := by simp [hp]
    header_at := by simp [hp, inHeader] }

/-- Before the last octet of a row all eight lanes are active, and in it those that are left (42_unpack.md R146). -/
theorem activeLanes_of_lt {w xb : Nat} (h : xb + 8 < w) : activeLanes w xb = 8 := by
  unfold activeLanes
  omega

theorem add_activeLanes_of_le {w xb : Nat} (hx : xb < w) (h : w ≤ xb + 8) : xb + activeLanes w xb = w := by
  unfold activeLanes
  omega

theorem Sound.rowAdvance {s : State} (h : Sound s) (hp : s.phase = .rows) (p : Byte)
    (ha : admitted s.platform.outCap (pixelWrites p s) = true) :
    Sound (rowAdvance (writePixels (pixelWrites p s) s)) := by
  obtain ⟨hy, h8, hx, -⟩ := h.rows_at hp
  obtain ⟨⟨-, hw⟩, -, hh⟩ := h.dims (.inl hp)
  have hwp := writePixels_wptr_toNat h hp p
  have hm : (writePixels (pixelWrites p s) s).output.within s.platform.outCap :=
    ⟨pixelFold_wf _ h.output_wf, pixelFold_addr _ h.output_addr ha⟩
  have hy1 : (s.y + 1#16).toNat = s.y.toNat + 1 := by
    simp only [BitVec.toNat_add, BitVec.toNat_ofNat]
    omega
  have hnext (hle : s.width.toNat ≤ s.xb.toNat + 8) :
      (s.wptr + BitVec.ofNat 34 (4 * (pixelWrites p s).length)).toNat = (s.y + 1#16).toNat * s.width.toNat * 4 := by
    rw [hwp, Nat.add_assoc, add_activeLanes_of_le hx hle, hy1, Nat.succ_mul]
  obtain ⟨hlt, e⟩ | ⟨hle, hne, e⟩ | ⟨hle, heq, e⟩ := rowAdvance_cases (writePixels (pixelWrites p s) s) <;> rw [e]
  · have hlt : s.xb.toNat + 8 < s.width.toNat := hlt
    have hxb : ((s.xb.setWidth 17 + 8#17).setWidth 16).toNat = s.xb.toNat + 8 := by
      simp only [BitVec.toNat_add, BitVec.toNat_setWidth, BitVec.toNat_ofNat]
      omega
    refine h.withinRows hp hm ⟨hy, ?_⟩
    rw [writePixels_xb, hxb, writePixels_wptr, hwp, activeLanes_of_lt hlt]
    exact ⟨by omega, hlt, rfl⟩
  · exact h.withinRows hp hm ⟨lt_of_le_of_ne (hy1 ▸ hy) hne, rfl, Nat.zero_lt_of_lt hx, hnext hle⟩
  · have heq : (s.y + 1#16).toNat = s.height.toNat := heq
    rw [endCheck_inside]
    · exact h.toDone hp hm heq ((hnext hle).trans (by rw [heq, Nat.mul_comm s.width.toNat]))
    · exact h.pos_le (by simp [State.busy, hp, phaseBusy])

theorem Sound.unpackOctet {s : State} (h : Sound s) (hp : s.phase = .rows) (p : Byte) : Sound (unpackOctet p s) := by
  obtain ⟨-, e⟩ | ⟨-, -, e⟩ | ⟨hpos, ha, e⟩ := unpackOctet_cases p s <;> rw [e]
  · exact h.raise _
  · exact h
  · exact (h.pos_succ hpos).rowAdvance hp p ha

/-! ### Every move keeps the invariant -/

theorem BlockMove.sound {s t : State} (m : BlockMove s t) (h : Sound s) : Sound t := by
  cases m with
  | rest => exact h
  | endOfInput => exact h.raise _
  | varintCont g _ hp => exact h.varintContinue g (by rcases hp with hp | hp | hp <;> rw [hp] <;> rfl)
  | typeLast g _ hp => exact h.varintLast g fun v s1 hv h1 hacc hp1 => h1.acceptType hv hacc (hp1.trans hp)
  | fixZero _ hp =>
    exact h.withOctet _ fun h1 => h1.toHeaderPhase (by simp [hp, inHeader]) rfl (h.acc_zero (by rw [hp]; rfl))
      (h.type_zero (by rw [hp]; rfl))
  | fixNonzero => exact h.withOctet _ fun h1 => h1.raise _
  | widthLast g _ hp => exact h.varintLast g fun v s1 hv h1 hacc hp1 => h1.acceptWidth hv hacc (hp1.trans hp)
  | heightLast g _ hp => exact h.varintLast g fun v s1 hv h1 hacc hp1 => h1.acceptHeight hv hacc (hp1.trans hp)
  | rowByte p _ hp => exact h.unpackOctet hp p

theorem EventMove.sound {s t : State} {e : HostEvent} (m : EventMove s e t) (h : Sound s) : Sound t := by
  cases m with
  | block hs => exact (blockMove_of_blockStep hs).sound h
  | reset => exact h.resetBlock
  | readWindow => exact h.hostReadWord _
  | ignoredWrite => exact h
  | setInLen _ _ data hb => exact h.withInLen hb data
  | start => exact h.startDecode
  | writeInput a b => exact h.withInput a b
  | readInput a w n => exact h.withHostFields s.agenda w n
  | writeOutput a b v n ha => exact (h.withOutput ha v).withHostFields s.agenda s.rdata n
  | readOutput a w n => exact h.withHostFields s.agenda w n

/-- Settles O52: every move of the block and of the agenda keeps the invariant. -/
theorem stepKeepsTheInvariant : Obligations.StepKeepsTheInvariant := by
  intro s t h hs
  obtain ⟨-, hb⟩ | ⟨e, rest, -, he⟩ := step_moves hs
  · exact (blockMove_of_blockStep hb).sound h
  · exact he.sound (h.withHostFields rest s.rdata s.draws)

/-- Settles O51: at reset the registers are those of 10_state.md R20 and both memories list nothing. -/
theorem resetMeetsTheInvariant : Obligations.ResetMeetsTheInvariant :=
  sound_of_registers_atReset rfl (by decide) fun _ => rfl

end Sys2Proof.Machine
end

section
/-! PROOFS. What the steps leave unchanged: the registers outside START, reset and the block's turn, and the cursor and
the input buffer during a decode (10_state.md R21, R22, R31, R35). -/

namespace Sys2Proof.Machine

/-! ### START -/

theorem startDecode_registers (s : State) :
    (startDecode s).registers = { Registers.atReset with phase := .type, inLen := s.inLen } := rfl

/-- Settles O42: the registers after START are a function of IN_LEN. -/
theorem startForgetsEarlierDecodes : Obligations.StartForgetsEarlierDecodes := by
  intro s s' t t' ign ign' hb hb' hlen hs hs'
  rw [exec_start_resting hb] at hs
  rw [exec_start_resting hb'] at hs'
  cases hs
  cases hs'
  rw [startDecode_registers, startDecode_registers, hlen]

/-- Settles O49: the registers, the STATUS word and the flags of the reset state, as the model computes them. -/
theorem resetStateIsIdle : Obligations.ResetStateIsIdle := ⟨rfl, rfl, rfl, rfl, rfl⟩

/-! ### Leaving rest -/

theorem eq_of_blockStep_rest {s t : State} (hb : s.busy = false) (h : blockStep s = .next t) : t = s :=
  (Host.Outcome.next.inj ((blockStep_rest hb).symm.trans h)).symm

/-- Settles O53: at rest the block takes no step, and of the host's accesses only START moves PHASE. -/
theorem onlyStartAndResetLeaveRest : Obligations.OnlyStartAndResetLeaveRest := by
  intro s t hp hs hne
  have hb : s.busy = false := resting_not_busy hp
  obtain ⟨-, h⟩ | ⟨e, rest, ha, m⟩ := step_moves hs
  · exact absurd (congrArg State.phase (eq_of_blockStep_rest hb h)) hne
  · refine ⟨rest, ?_⟩
    cases m with
    | reset => exact .inl ha
    | start data _ hd => exact .inr ⟨data, ha, hd, rfl⟩
    | block h => exact absurd (congrArg State.phase (eq_of_blockStep_rest (s := { s with agenda := rest }) hb h)) hne
    | _ => exact absurd rfl hne

/-! ### The cursor and the input buffer during a decode -/

/-- The cursor, the input buffer, and what belongs to the platform and the host: what no rule of a decode writes but
the octet read. -/
def State.surroundings (s : State) :
    Word × Word × Memory × Platform × List HostEvent × Word × HostSync × Nat × Nat :=
  (s.pos, s.inLen, s.input, s.platform, s.agenda, s.rdata, s.sync, s.unseen, s.draws)

theorem acceptType_surroundings (v : Word) (s : State) : (acceptType v s).surroundings = s.surroundings := by
  unfold acceptType
  split <;> rfl

theorem acceptHeight_surroundings (v : Word) (s : State) : (acceptHeight v s).surroundings = s.surroundings := by
  unfold acceptHeight dimensionCheck
  split <;> rfl

theorem rowAdvance_surroundings (s : State) : (rowAdvance s).surroundings = s.surroundings := by
  obtain ⟨-, e⟩ | ⟨-, -, e⟩ | ⟨-, -, e⟩ := rowAdvance_cases s <;> rw [e]
  · rfl
  · rfl
  · unfold endCheck
    split <;> rfl

/-- A state the block's move may reach: the surroundings stay, but that the cursor may have passed one octet. -/
def MovesPastAtMostOneOctet (s t : State) : Prop :=
  t.surroundings = s.surroundings ∨
    (s.pos.toNat < s.inLen.toNat ∧ t.surroundings = { s with pos := s.pos + 1#32 }.surroundings)

theorem withOctet_moves (eof : ErrKind) (s : State) {k : State → State}
    (hk : ∀ s1, (k s1).surroundings = s1.surroundings) : MovesPastAtMostOneOctet s (withOctet eof s k) := by
  obtain ⟨-, e⟩ | ⟨hp, e⟩ := withOctet_cases eof s k <;> rw [e]
  · exact .inl rfl
  · exact .inr ⟨hp, hk _⟩

theorem withGroup_moves (g : BitVec 7) (s : State) {k : Word → State → State}
    (hk : ∀ v s1, (k v s1).surroundings = s1.surroundings) : MovesPastAtMostOneOctet s (withGroup g s k) :=
  withOctet_moves .outOfBounds s fun s1 => by
    split
    · rfl
    · exact hk _ s1

theorem unpackOctet_moves (p : Byte) (s : State) : MovesPastAtMostOneOctet s (unpackOctet p s) := by
  obtain ⟨-, e⟩ | ⟨-, -, e⟩ | ⟨hp, -, e⟩ := unpackOctet_cases p s <;> rw [e]
  · exact .inl rfl
  · exact .inl rfl
  · exact .inr ⟨hp, rowAdvance_surroundings _⟩

theorem BlockMove.movesPastAtMostOneOctet {s t : State} (m : BlockMove s t) : MovesPastAtMostOneOctet s t := by
  cases m with
  | rest => exact .inl rfl
  | endOfInput => exact .inl rfl
  | varintCont g => exact withGroup_moves g s fun _ _ => rfl
  | typeLast g => exact withGroup_moves g s fun v s1 => acceptType_surroundings v { s1 with acc := 0#32 }
  | fixZero => exact withOctet_moves _ s fun _ => rfl
  | fixNonzero => exact withOctet_moves _ s fun _ => rfl
  | widthLast g => exact withGroup_moves g s fun _ _ => rfl
  | heightLast g => exact withGroup_moves g s fun v s1 => acceptHeight_surroundings v { s1 with acc := 0#32 }
  | rowByte p => exact unpackOctet_moves p s

/-- During a decode the host moves neither a register nor an input octet (43_host.md R164, R166, 70_reset_and_hazards.md
R205). -/
theorem EventMove.registers_of_busy {s t : State} {e : HostEvent} (m : EventMove s e t) (hb : s.busy = true)
    (hblock : e ≠ .block) (hreset : e ≠ .reset) : t.registers = s.registers ∧ t.input = s.input := by
  cases m with
  | block h => exact absurd rfl hblock
  | reset => exact absurd rfl hreset
  | setInLen _ _ _ hb' | start _ hb' _ | writeInput _ _ hb' => exact absurd (hb'.symm.trans hb) Bool.false_ne_true
  | _ => exact ⟨rfl, rfl⟩

/-- A step of a decode that is no reset: the block's move, or registers and input untouched. -/
theorem step_of_busy {s t : State} (hb : s.busy = true) (hs : step s = .next t)
    (hr : ∀ rest, s.agenda ≠ .reset :: rest) :
    (∃ rest, MovesPastAtMostOneOctet { s with agenda := rest } t) ∨
      (t.registers = s.registers ∧ t.input = s.input) := by
  obtain ⟨ha, h⟩ | ⟨e, rest, ha, m⟩ := step_moves hs
  · exact .inl ⟨s.agenda, (blockMove_of_blockStep h).movesPastAtMostOneOctet⟩
  · by_cases he : e = .block
    · subst he
      obtain ⟨h⟩ := m
      exact .inl ⟨rest, (blockMove_of_blockStep h).movesPastAtMostOneOctet⟩
    · exact .inr (m.registers_of_busy hb he fun h => hr rest (h ▸ ha))

/-- Settles O55: the block's moves keep IN_LEN and the input space, and the host's accesses change neither. -/
theorem bufferIsConstantDuringADecode : Obligations.BufferIsConstantDuringADecode := by
  intro s t hb hs hr
  obtain ⟨rest, h | ⟨-, h⟩⟩ | ⟨h, hi⟩ := step_of_busy hb hs hr
  · exact ⟨congrArg (·.2.1) h, congrArg (·.2.2.1) h⟩
  · exact ⟨congrArg (·.2.1) h, congrArg (·.2.2.1) h⟩
  · exact ⟨congrArg (·.inLen) h, hi⟩

/-- Settles O56: the block's move passes at most one octet, and then POS does not wrap. -/
theorem cursorOnlyAdvancesByOne : Obligations.CursorOnlyAdvancesByOne := by
  intro s t hb hs hr
  obtain ⟨rest, h | ⟨hp, h⟩⟩ | ⟨h, -⟩ := step_of_busy hb hs hr
  · exact .inl (congrArg (·.1) h)
  · have hpos : t.pos = s.pos + 1#32 := congrArg (·.1) h
    exact .inr ⟨by rw [hpos, pos_succ hp], hp⟩
  · exact .inl (congrArg (·.pos) h)

end Sys2Proof.Machine
end

section
/-! PROOFS. What each access of the host does (20_memory.md R50, R61 to R63, 43_host.md R161 to R167): one rule for each
access and each outcome, and the stops of the machine. -/

namespace Sys2Proof.Machine

/-! ### Stops of the step itself -/

/-- Settles O13: the two checks the step makes before anyone moves. -/
theorem reservedCodeAndOverlapStop : Obligations.ReservedCodeAndOverlapStop := by
  refine ⟨fun s h => if_pos h, fun s h hd => ?_⟩
  rw [step, machineStep, if_neg h, hd]
  rfl

/-! ### The register window -/

theorem exec_readReg_aligned {off : BitVec 6} (h : off.toNat % 4 = 0) (data : Word) (s : State) :
    exec (.readReg off data) s = .next (hostReadWord off s) :=
  if_pos ((offsetAligned_iff off).mpr h)

theorem hostReadWord_sync_done {s : State} (hp : s.phase = .done) :
    (hostReadWord statusOffset s).sync = .owner := by simp [syncAfterStatus, hp]

theorem hostReadWord_sync_error {s : State} (hp : s.phase = .error) :
    (hostReadWord statusOffset s).sync = .failed := by simp [syncAfterStatus, hp]

/-- Settles O36: START leaves `unorderedBelow`, and of the reads only one of STATUS at the end of a decode moves it. -/
theorem statusReadEndsTheDecodeForTheHost : Obligations.StatusReadEndsTheDecodeForTheHost := by
  refine ⟨fun s ign hb => ⟨_, exec_start_resting hb ign, rfl, startDecode_unorderedBelow s⟩, fun s off data ha =>
    ⟨_, exec_readReg_aligned ha data s, ?_, ?_, hostReadWord_unordered⟩⟩
  · rintro rfl hp
    exact ⟨hostReadWord_sync_done hp, hostReadWord_ordered (.inl hp)⟩
  · rintro rfl hp
    exact ⟨hostReadWord_sync_error hp, hostReadWord_ordered (.inr hp)⟩

/-- Every row a host write selects answers a next state. -/
theorem exists_exec_decodeHostWrite (off : BitVec 6) (data : Word) (s : State) :
    ∃ t, exec (decodeHostWrite off data) s = .next t := by
  obtain ⟨-, -, e⟩ | ⟨-, -, e⟩ | e | e | e | e | e := decodeHostWrite_rows off data <;> rw [e] <;> exact ⟨_, rfl⟩

theorem exists_registerAccess {offset : Nat} (ha : offset % 4 = 0) (ho : offset < 64) (wr : Bool) (data : Word)
    (s : State) : ∃ t, registerAccess wr offset 4 data s = .next t := by
  obtain ⟨hn, -⟩ | ⟨-, -, -, e⟩ := registerAccess_cases wr offset 4 data s
  · exact absurd ⟨rfl, ha, ho⟩ hn
  · rw [e]
    cases wr
    · have hoff : (BitVec.ofNat 6 offset).toNat % 4 = 0 := by
        rw [BitVec.toNat_ofNat]
        omega
      exact ⟨_, exec_readReg_aligned hoff data s⟩
    · exact exists_exec_decodeHostWrite _ data s

/-! ### The input space -/

theorem decodeOutstanding_iff (s : State) : s.decodeOutstanding = true ↔ s.busy = true ∨ s.sync = .pending := by
  simp [State.decodeOutstanding]

theorem hostWriteInput_outstanding {s : State} (h : s.busy = true ∨ s.sync = .pending) (a : InAddr) (b : Byte) :
    hostWriteInput a b s = .refused .inputWriteDuringDecode :=
  if_pos ((decodeOutstanding_iff s).mpr h)

theorem hostWriteInput_owned {s : State} (h : ¬(s.busy = true ∨ s.sync = .pending)) (a : InAddr) (b : Byte) :
    hostWriteInput a b s = .next { s with input := s.input.write a.toNat b } :=
  if_neg (mt (decodeOutstanding_iff s).mp h)

theorem exists_hostReadInput (a : InAddr) (s : State) : ∃ t, hostReadInput a s = .next t := by
  unfold hostReadInput
  split <;> exact ⟨_, rfl⟩

/-- Settles O43: the write is refused while a decode is outstanding and else stored. -/
theorem hostInputWriteOrRefusal : Obligations.HostInputWriteOrRefusal := by
  intro s a b rest hr ha
  have hstep : step s = hostWriteInput a b { s with agenda := rest } := step_event hr ha
  refine ⟨fun h => hstep.trans (hostWriteInput_outstanding (s := { s with agenda := rest }) h a b), fun hb hs => ?_⟩
  have howned : ¬(s.busy = true ∨ s.sync = .pending) := by simp [hb, hs]
  refine ⟨_, hstep.trans (hostWriteInput_owned (s := { s with agenda := rest }) howned a b), ?_,
    fun k hk => read_write_other _ b hk, rfl, rfl, rfl⟩
  simp [State.inRead, read_write_same]

/-! ### The output space -/

theorem outputVisible_iff (s : State) (a : Nat) :
    s.outputVisible a = true ↔
      ¬(s.busy = true ∨ s.phase = .error ∨ s.sync = .failed ∨ s.sync = .failedUnread ∨ a < s.unorderedBelow) := by
  simp [State.outputVisible, State.afterError, State.err, State.outputOrdered, and_assoc]

theorem hostReadOutput_unbacked {s : State} {a : OutAddr} (h : s.platform.outCap ≤ a.toNat) :
    hostReadOutput a s = .fault .outputAddressUnbacked := if_pos h

theorem hostReadOutput_visible {s : State} {a : OutAddr} (h : a.toNat < s.platform.outCap)
    (hv : s.outputVisible a.toNat = true) :
    hostReadOutput a s = .next { s with rdata := byteDatum (s.outRead a.toNat) } := by
  rw [hostReadOutput, if_neg (Nat.not_le.mpr h), if_pos hv]

theorem hostReadOutput_draw {s : State} {a : OutAddr} (h : a.toNat < s.platform.outCap)
    (hv : ¬s.outputVisible a.toNat = true) :
    hostReadOutput a s = .next (afterDraw { s with rdata := byteDatum (drawnByte s) }) := by
  rw [hostReadOutput, if_neg (Nat.not_le.mpr h), if_neg hv]

theorem hostWriteOutput_unbacked {s : State} {a : OutAddr} (h : s.platform.outCap ≤ a.toNat) (b : Byte) :
    hostWriteOutput a b s = .fault .outputAddressUnbacked := if_pos h

theorem hostWriteOutput_busy {s : State} {a : OutAddr} (h : a.toNat < s.platform.outCap) (hb : s.busy = true)
    (b : Byte) : hostWriteOutput a b s = .refused .outputWriteWhileBusy := by
  rw [hostWriteOutput, if_neg (Nat.not_le.mpr h), if_pos hb]

/-- Outside BUSY a host write stores its byte, or a free one where the block's write to the byte is not ordered (log
entry 9). -/
theorem hostWriteOutput_resting {s : State} {a : OutAddr} (h : a.toNat < s.platform.outCap) (hb : s.busy = false)
    (b : Byte) :
    hostWriteOutput a b s = .next (if s.outputOrdered a.toNat
      then { s with output := s.output.write a.toNat b }
      else afterDraw { s with output := s.output.write a.toNat (drawnByte s) }) := by
  rw [hostWriteOutput, if_neg (Nat.not_le.mpr h), hb, if_neg Bool.false_ne_true, apply_ite Host.Outcome.next]

/-- Settles O45: such a byte is visible; with sync `owner` every byte of a sound state is ordered. -/
theorem outputReadAfterDoneIsExact : Obligations.OutputReadAfterDoneIsExact := by
  intro s a b rest hr ha hcap hp hread
  have hexact (hf : s.sync ≠ .failed) (hfu : s.sync ≠ .failedUnread) (hle : s.unorderedBelow ≤ a.toNat) :
      step s = .next { s with agenda := rest, rdata := b.setWidth 32 } := by
    have hb : s.busy = false := resting_not_busy (hp.imp_right .inl)
    have herr : s.phase ≠ .error := by rcases hp with hp | hp <;> simp [hp]
    have hv : s.outputVisible a.toNat = true := by
      rw [outputVisible_iff]
      simp [hb, herr, hf, hfu, hle]
    have hout : s.outRead a.toNat = b := by simp [State.outRead, hread]
    have hval : hostReadOutput a { s with agenda := rest } =
        .next { s with agenda := rest, rdata := byteDatum (s.outRead a.toNat) } := hostReadOutput_visible hcap hv
    rw [hout] at hval
    exact (step_event hr ha).trans hval
  refine ⟨fun h hs => ?_, hexact⟩
  have hz : s.unorderedBelow = 0 := (unorderedBelow_of_seen (.inl hs)).trans (h.seen_all (.inl hs))
  exact hexact (by simp [hs]) (by simp [hs]) (by simp [hz])

/-- Settles O46: such a byte is not visible, and the value drawn is a function of the counter alone. -/
theorem outputReadBeforeDoneIsADraw : Obligations.OutputReadBeforeDoneIsADraw := by
  intro s a rest m hr ha hcap h
  have hv : ¬s.outputVisible a.toNat = true := fun h' => (outputVisible_iff s a.toNat).mp h' h
  refine ⟨drawnByte s, (step_event hr ha).trans ?_, (step_event (s := { s with output := m }) hr ha).trans ?_⟩
  · exact hostReadOutput_draw (s := { s with agenda := rest }) hcap hv
  · exact hostReadOutput_draw (s := { s with output := m, agenda := rest }) hcap hv

/-- Settles O48: both accesses check the address first. -/
theorem unbackedOutputAccessFaults : Obligations.UnbackedOutputAccessFaults := by
  intro s a b rest hr ha hcap
  rcases ha with ha | ha
  · exact (step_event hr ha).trans (hostReadOutput_unbacked (s := { s with agenda := rest }) hcap)
  · exact (step_event hr ha).trans (hostWriteOutput_unbacked (s := { s with agenda := rest }) hcap b)

theorem exists_hostReadOutput {a : OutAddr} {s : State} (h : a.toNat < s.platform.outCap) :
    ∃ t, hostReadOutput a s = .next t := by
  by_cases hv : s.outputVisible a.toNat = true
  · exact ⟨_, hostReadOutput_visible h hv⟩
  · exact ⟨_, hostReadOutput_draw h hv⟩

/-! ### The stops of the machine -/

/-- Settles O59: the block and reset always move, and each access of the host moves but where its rule says that it
stops. -/
theorem onlyNamedHostAccessesStop : Obligations.OnlyNamedHostAccessesStop := by
  intro s h hd
  have hr : s.runnable := ⟨h.err_legal, hd⟩
  cases ha : s.agenda with
  | nil =>
    obtain ⟨t, hs, -⟩ := exists_blockMove s
    exact .inl ⟨t, (step_block hr ha).trans hs⟩
  | cons e rest =>
    have hstep := step_event hr ha
    have goesOn (hm : ∃ t, runEvent e { s with agenda := rest } = .next t) : stepGoesOn s :=
      hm.imp fun t ht => hstep.trans ht
    cases e with
    | block =>
      obtain ⟨t, hs, -⟩ := exists_blockMove { s with agenda := rest }
      exact .inl (goesOn ⟨t, hs⟩)
    | reset => exact .inl (goesOn ⟨_, rfl⟩)
    | register wr offset bytes data =>
      by_cases hok : bytes = 4 ∧ offset % 4 = 0 ∧ offset < 64
      · obtain ⟨rfl, hal, ho⟩ := hok
        exact .inl (goesOn (exists_registerAccess hal ho wr data _))
      · obtain ⟨-, e⟩ | ⟨hb, hal, ho, -⟩ := registerAccess_cases wr offset bytes data { s with agenda := rest }
        · exact .inr (.inr (.inr (.inr ⟨wr, offset, bytes, data, rest, rfl, hok, hstep.trans e⟩)))
        · exact absurd ⟨hb, hal, ho⟩ hok
    | writeInput a b =>
      by_cases ho : s.busy = true ∨ s.sync = .pending
      · exact .inr (.inl ⟨a, b, rest, rfl, ho, (hostInputWriteOrRefusal s a b rest hr ha).1 ho⟩)
      · exact .inl (goesOn ⟨_, hostWriteInput_owned (s := { s with agenda := rest }) ho a b⟩)
    | readInput a => exact .inl (goesOn (exists_hostReadInput a _))
    | writeOutput a b =>
      by_cases hcap : s.platform.outCap ≤ a.toNat
      · exact .inr (.inr (.inr (.inl ⟨a, b, rest, .inr rfl, hcap,
          unbackedOutputAccessFaults s a b rest hr (.inr ha) hcap⟩)))
      · have hcap : a.toNat < s.platform.outCap := Nat.lt_of_not_le hcap
        cases hb : s.busy
        · exact .inl (goesOn ⟨_, hostWriteOutput_resting (s := { s with agenda := rest }) hcap hb b⟩)
        · exact .inr (.inr (.inl ⟨a, b, rest, rfl, rfl,
            hstep.trans (hostWriteOutput_busy (s := { s with agenda := rest }) hcap hb b)⟩))
    | readOutput a =>
      by_cases hcap : s.platform.outCap ≤ a.toNat
      · exact .inr (.inr (.inr (.inl ⟨a, 0#8, rest, .inl rfl, hcap,
          unbackedOutputAccessFaults s a 0#8 rest hr (.inl ha) hcap⟩)))
      · exact .inl (goesOn (exists_hostReadOutput (s := { s with agenda := rest }) (Nat.lt_of_not_le hcap)))

end Sys2Proof.Machine
end

section
/-! PROOFS. What the block's step depends on and what it leaves (20_memory.md R51 to R53): the header's operations neither
read nor write a memory, ROW_BYTE only writes the output space, and the octet at POS is all that is read of the input. -/

namespace Sys2Proof.Machine

/-! ### Operations that neither read nor write a memory -/

/-- The same registers and host fields over other memories. -/
def State.withMemories (s : State) (i o : Memory) : State := { s with input := i, output := o }

/-- The operation does the same over any memories, and keeps them. -/
def IgnoresMemories (f : State → State) : Prop :=
  ∀ (s : State) (i o : Memory), f (s.withMemories i o) = (f s).withMemories i o

theorem IgnoresMemories.output_eq {f : State → State} (hf : IgnoresMemories f) (s : State) :
    (f s).output = s.output :=
  (congrArg State.output (hf s s.input s.output)).trans rfl

theorem raise_ignoresMemories (k : ErrKind) : IgnoresMemories (raise k) := fun _ _ _ => rfl

theorem IgnoresMemories.ite {f g : State → State} (hf : IgnoresMemories f) (hg : IgnoresMemories g)
    {p : State → Prop} [DecidablePred p] (hp : ∀ s i o, p (s.withMemories i o) ↔ p s) :
    IgnoresMemories fun s => if p s then f s else g s := by
  intro s i o
  simp only [hp]
  split
  · exact hf s i o
  · exact hg s i o

theorem IgnoresMemories.withOctet (eof : ErrKind) {k : State → State} (hk : IgnoresMemories k) :
    IgnoresMemories fun s => withOctet eof s k :=
  (raise_ignoresMemories eof).ite (fun s => hk { s with pos := s.pos + 1#32 }) fun _ _ _ => Iff.rfl

theorem IgnoresMemories.withGroup (g : BitVec 7) {k : Word → State → State} (hk : ∀ v, IgnoresMemories (k v)) :
    IgnoresMemories fun s => withGroup g s k :=
  .withOctet _ <| (raise_ignoresMemories .integerOverflow).ite (fun s => hk (accumulate s.acc g) s)
    fun _ _ _ => Iff.rfl

theorem varintContinue_ignoresMemories (g : BitVec 7) : IgnoresMemories (varintContinue g) :=
  .withGroup g fun _ _ _ _ => rfl

theorem IgnoresMemories.varintLast (g : BitVec 7) {k : Word → State → State} (hk : ∀ v, IgnoresMemories (k v)) :
    IgnoresMemories fun s => varintLast g s k :=
  .withGroup g fun v s => hk v { s with acc := 0#32 }

theorem fixNonzero_ignoresMemories : IgnoresMemories fixNonzero := .withOctet _ (raise_ignoresMemories _)

theorem acceptType_ignoresMemories (v : Word) : IgnoresMemories (acceptType v) :=
  .ite (fun _ _ _ => rfl) (fun _ _ _ => rfl) fun _ _ _ => Iff.rfl

theorem acceptHeight_ignoresMemories (v : Word) : IgnoresMemories (acceptHeight v) :=
  .ite (p := fun s => (dimInRange s.width && dimInRange v) = true) (fun _ _ _ => rfl) (fun _ _ _ => rfl)
    fun _ _ _ => Iff.rfl

theorem endCheck_ignoresMemories : IgnoresMemories endCheck :=
  (raise_ignoresMemories _).ite (fun _ _ _ => rfl) fun _ _ _ => Iff.rfl

theorem rowAdvance_ignoresMemories : IgnoresMemories rowAdvance :=
  .ite (p := fun s => (s.xb.setWidth 17 + 8#17).toNat < s.width.toNat) (fun _ _ _ => rfl)
    (.ite (p := fun s => (s.y + 1#16).toNat = s.height.toNat)
      (fun s => endCheck_ignoresMemories { s with xb := 0#16, y := s.y + 1#16 }) (fun _ _ _ => rfl) fun _ _ _ => Iff.rfl)
    fun _ _ _ => Iff.rfl

/-- Every row an octet selects ignores the memories, but ROW_BYTE. -/
theorem decodeOctet_effect {ph : Phase} {o : Byte} {i : Instr} (h : decodeOctet ph o = .ok i) :
    i = .rowByte o ∨ ∃ f, IgnoresMemories f ∧ ∀ s, exec i s = .next (f s) := by
  obtain ⟨-, ⟨-, rfl⟩ | ⟨-, rfl⟩⟩ | ⟨-, rfl | hn⟩ | ⟨-, ⟨-, rfl⟩ | ⟨-, rfl⟩⟩ | ⟨-, ⟨-, rfl⟩ | ⟨-, rfl⟩⟩ | ⟨-, rfl⟩ :=
    decodeOctet_rows h
  · exact .inr ⟨_, varintContinue_ignoresMemories _, fun _ => rfl⟩
  · exact .inr ⟨_, .varintLast _ acceptType_ignoresMemories, fun _ => rfl⟩
  · exact .inr ⟨_, .withOctet .outOfBounds fun _ _ _ => rfl, fun _ => rfl⟩
  · exact .inr ⟨_, fixNonzero_ignoresMemories, exec_fixNonzero hn⟩
  · exact .inr ⟨_, varintContinue_ignoresMemories _, fun _ => rfl⟩
  · exact .inr ⟨_, .varintLast _ fun _ _ _ _ => rfl, fun _ => rfl⟩
  · exact .inr ⟨_, varintContinue_ignoresMemories _, fun _ => rfl⟩
  · exact .inr ⟨_, .varintLast _ acceptHeight_ignoresMemories, fun _ => rfl⟩
  · exact .inl rfl

/-! ### ROW_BYTE writes the output space and reads neither memory -/

theorem unpackOctet_stuck {s : State} {p : Byte} (hi : s.pos.toNat < s.inLen.toNat)
    (ha : ¬admitted s.platform.outCap (pixelWrites p s) = true) : unpackOctet p s = s := by
  obtain ⟨he, -⟩ | ⟨-, -, e⟩ | ⟨-, ha', -⟩ := unpackOctet_cases p s
  · exact absurd hi (Nat.not_lt.mpr he)
  · exact e
  · exact absurd ha' ha

theorem unpackOctet_admitted {s : State} {p : Byte} (hi : s.pos.toNat < s.inLen.toNat)
    (ha : admitted s.platform.outCap (pixelWrites p s) = true) :
    unpackOctet p s = rowAdvance (writePixels (pixelWrites p s) { s with pos := s.pos + 1#32 }) := by
  obtain ⟨he, -⟩ | ⟨-, ha', -⟩ | ⟨-, -, e⟩ := unpackOctet_cases p s
  · exact absurd hi (Nat.not_lt.mpr he)
  · exact absurd (ha'.symm.trans ha) Bool.false_ne_true
  · exact e

theorem unpackOctet_withMemories {s : State} (hi : s.pos.toNat < s.inLen.toNat) (p : Byte) (i o : Memory) :
    ∃ o', unpackOctet p (s.withMemories i o) = (unpackOctet p s).withMemories i o' ∧
      (o = s.output → o' = (unpackOctet p s).output) := by
  by_cases ha : admitted s.platform.outCap (pixelWrites p s) = true
  · rw [unpackOctet_admitted hi ha, unpackOctet_admitted (s := s.withMemories i o) hi ha]
    refine ⟨pixelFold (pixelWrites p s) o, ?_, fun h => ?_⟩
    · exact rowAdvance_ignoresMemories (writePixels (pixelWrites p s) { s with pos := s.pos + 1#32 }) i _
    · rw [rowAdvance_ignoresMemories.output_eq, h]
      rfl
  · rw [unpackOctet_stuck hi ha, unpackOctet_stuck (s := s.withMemories i o) hi ha]
    exact ⟨o, rfl, id⟩

/-! ### The block's turn -/

/-- Over other memories that hold the same octet at POS the block's turn is the same, but for what it finds and leaves in
them. -/
theorem blockStep_withMemories {s t : State} (hs : blockStep s = .next t) {i : Memory} (o : Memory)
    (hread : (s.withMemories i o).inRead s.pos.toNat = s.inRead s.pos.toNat) :
    ∃ o', blockStep (s.withMemories i o) = .next (t.withMemories i o') ∧ (o = s.output → o' = t.output) := by
  obtain ⟨hb, e⟩ | ⟨hb, he, e⟩ | ⟨hb, hi, r, hd, e⟩ := blockStep_cases s <;> rw [e] at hs
  · cases hs
    exact ⟨o, blockStep_rest (s := s.withMemories i o) hb, id⟩
  · cases hs
    exact ⟨o, blockStep_end (s := s.withMemories i o) hb he, id⟩
  · have e' : blockStep (s.withMemories i o) = exec r (s.withMemories i o) :=
      blockStep_octet (s := s.withMemories i o) hb hi ((congrArg _ hread).trans hd)
    rw [e']
    obtain rfl | ⟨f, hf, hx⟩ := decodeOctet_effect hd
    · cases hs
      obtain ⟨o', h, ho⟩ := unpackOctet_withMemories hi (s.inRead s.pos.toNat) i o
      exact ⟨o', congrArg Host.Outcome.next h, ho⟩
    · rw [hx] at hs
      cases hs
      exact ⟨o, by rw [hx, hf], fun h => h.trans (hf.output_eq s).symm⟩

theorem BlockMove.input_eq {s t : State} (m : BlockMove s t) : t.input = s.input := by
  obtain h | ⟨-, h⟩ := m.movesPastAtMostOneOctet <;> exact congrArg (·.2.2.1) h

/-- A step with an empty agenda is the block's turn. -/
theorem blockStep_of_step {s t : State} (ha : s.agenda = []) (hs : step s = .next t) :
    s.runnable ∧ blockStep s = .next t :=
  have hr := (step_next hs).1
  ⟨hr, (step_block hr ha).symm.trans hs⟩

/-- Settles O54: of all moves only the host's input write changes the input space. -/
theorem onlyTheHostWritesTheInput : Obligations.OnlyTheHostWritesTheInput := by
  intro s t hs hne
  obtain ⟨-, h⟩ | ⟨e, rest, ha, m⟩ := step_moves hs
  · exact (blockMove_of_blockStep h).input_eq
  · cases m with
    | block h => exact (blockMove_of_blockStep h).input_eq
    | writeInput a b => exact absurd ha (hne a b rest)
    | _ => rfl

/-- Settles O57: with the same octet at POS and the same output space the block's turn leaves the same output space. -/
theorem otherInputOctetsHaveNoEffect : Obligations.OtherInputOctetsHaveNoEffect := by
  intro s t m ha hread hs
  obtain ⟨hr, hb⟩ := blockStep_of_step ha hs
  obtain ⟨o, e, ho⟩ := blockStep_withMemories hb s.output (i := m) (congrArg (Option.getD · _) hread)
  rw [ho rfl] at e
  exact (step_block (s := { s with input := m }) hr ha).trans e

/-- Settles O58: over another output space the block's turn is the same. -/
theorem outputSpaceMovesNoRegister : Obligations.OutputSpaceMovesNoRegister := by
  intro s t m ha hs
  obtain ⟨hr, hb⟩ := blockStep_of_step ha hs
  obtain ⟨o, e, -⟩ := blockStep_withMemories hb m (i := s.input) rfl
  exact ⟨_, (step_block (s := { s with output := m }) hr ha).trans e, rfl, (blockMove_of_blockStep hb).input_eq.symm⟩

end Sys2Proof.Machine
end

section
/-! PROOFS. The block's writes to the output space (20_memory.md R53, R54, R61, R63): where ROW_BYTE writes, when its writes
are admitted, and that they are unordered until STATUS is read at the end of the decode. -/

namespace Sys2Proof.Machine

/-! ### Where the pixels of an octet lie -/

/-- Past the row's end no lane emits a pixel, and up to it every lane does (42_unpack.md R146): the lanes from `k` on. -/
theorem emitLanes_range' (width : Word) (xb : BitVec 16) (p : Byte) (n : Nat) :
    ∀ (k : Nat) (wp : OutAddr), k + n ≤ 8 →
      emitLanes width xb p (List.range' k n) wp =
        (List.range (min n (width.toNat - (xb.toNat + k)))).map
          fun j => (wp + BitVec.ofNat 34 (4 * j), laneBit p (k + j)) := by
  induction n with
  | zero => intro k wp _; simp [emitLanes]
  | succ n ih =>
    intro k wp hk
    have hnext (wp : OutAddr) := ih (k + 1) wp (by omega)
    have hactive := laneActive_iff width xb (j := k) (by omega)
    rw [List.range'_succ, emitLanes]
    by_cases h : xb.toNat + k < width.toNat
    · rw [if_pos (hactive.mpr h), hnext,
        show min (n + 1) (width.toNat - (xb.toNat + k)) = min n (width.toNat - (xb.toNat + (k + 1))) + 1 by omega,
        List.range_succ_eq_map, List.map_cons, List.map_map]
      congr 1
      · simp
      · refine List.map_congr_left fun j _ => ?_
        have haddr : wp + 4#34 + BitVec.ofNat 34 (4 * j) = wp + BitVec.ofNat 34 (4 * (j + 1)) := by
          rw [BitVec.add_assoc, ← BitVec.ofNat_add, Nat.mul_succ, Nat.add_comm 4]
        simp [haddr, Nat.add_assoc, Nat.add_comm 1]
    · rw [if_neg (mt hactive.mp h), hnext,
        show min (n + 1) (width.toNat - (xb.toNat + k)) = 0 by omega,
        show min n (width.toNat - (xb.toNat + (k + 1))) = 0 by omega]
      rfl

/-- The pixels of an octet: one for each active lane, at rising addresses from WPTR on (42_unpack.md R141, R146). -/
theorem pixelWrites_eq_map (p : Byte) (s : State) :
    pixelWrites p s = (List.range (activeLanes s.width.toNat s.xb.toNat)).map
      fun j => (s.wptr + BitVec.ofNat 34 (4 * j), laneBit p j) := by
  have h := emitLanes_range' s.width s.xb p 8 0 s.wptr (by omega)
  simp only [Nat.zero_add, Nat.add_zero] at h
  exact h

/-- In a sound state of the bitmap no pixel address wraps (10_state.md R28). -/
theorem laneAddress_toNat {s : State} (h : Sound s) (hp : s.phase = .rows) {j : Nat}
    (hj : j ≤ activeLanes s.width.toNat s.xb.toNat) :
    (s.wptr + BitVec.ofNat 34 (4 * j)).toNat = s.wptr.toNat + 4 * j := by
  obtain ⟨-, -, hx, hw⟩ := h.rows_at hp
  have hlt := row_end_lt h hp
  have hl : activeLanes s.width.toNat s.xb.toNat ≤ s.width.toNat - s.xb.toNat := Nat.min_le_right _ _
  rw [BitVec.toNat_add, BitVec.toNat_ofNat, hw]
  omega

/-- Every pixel of the octet lies between WPTR and the write position after it. -/
theorem mem_pixelWrites {s : State} (h : Sound s) (hp : s.phase = .rows) {p : Byte} {w : OutAddr × Bool}
    (hw : w ∈ pixelWrites p s) :
    ∃ j < activeLanes s.width.toNat s.xb.toNat, w.1.toNat = s.wptr.toNat + 4 * j := by
  rw [pixelWrites_eq_map, List.mem_map] at hw
  obtain ⟨j, hj, rfl⟩ := hw
  have hj := List.mem_range.mp hj
  exact ⟨j, hj, laneAddress_toNat h hp hj.le⟩

/-- The pixels of an octet are admitted exactly when the last of them is (20_memory.md R54). -/
theorem admitted_pixelWrites_iff {s : State} (h : Sound s) (hp : s.phase = .rows) (p : Byte) :
    admitted s.platform.outCap (pixelWrites p s) = true ↔
      s.wptr.toNat + 4 * activeLanes s.width.toNat s.xb.toNat ≤ s.platform.outCap := by
  have hx : s.xb.toNat < s.width.toNat := (h.rows_at hp).2.2.1
  have hpos : 0 < activeLanes s.width.toNat s.xb.toNat := by
    unfold activeLanes
    omega
  simp only [admitted, List.all_eq_true, decide_eq_true_eq]
  constructor
  · intro hall
    have hlast := hall (s.wptr + BitVec.ofNat 34 (4 * (activeLanes s.width.toNat s.xb.toNat - 1)), _) (by
      rw [pixelWrites_eq_map]
      exact List.mem_map_of_mem (List.mem_range.mpr (Nat.sub_one_lt_of_lt hpos)))
    rw [laneAddress_toNat h hp (Nat.sub_le _ _)] at hlast
    omega
  · intro hle w hw
    obtain ⟨j, hj, e⟩ := mem_pixelWrites h hp hw
    omega

/-! ### The stuck ROW_BYTE -/

theorem unpackOctet_without_room {s : State} (h : Sound s) (hp : s.phase = .rows) (hi : s.pos.toNat < s.inLen.toNat)
    (hcap : s.platform.outCap < s.wptr.toNat + 4 * activeLanes s.width.toNat s.xb.toNat) (p : Byte) :
    unpackOctet p s = s :=
  unpackOctet_stuck hi fun ha => absurd hcap (Nat.not_lt.mpr ((admitted_pixelWrites_iff h hp p).mp ha))

theorem blockStep_of_rows {s : State} (hp : s.phase = .rows) (hi : s.pos.toNat < s.inLen.toNat) :
    blockStep s = .next (unpackOctet (s.inRead s.pos.toNat) s) :=
  blockStep_octet (i := .rowByte (s.inRead s.pos.toNat)) (by simp [State.busy, hp, phaseBusy]) hi
    (by rw [hp]; rfl)

/-- Settles O30: without room for the last pixel of the octet ROW_BYTE keeps the state, whoever lists the block's turn. -/
theorem rowByteNotAdmittedIsStuck : Obligations.RowByteNotAdmittedIsStuck := by
  intro s h hp hi hcap
  have hblock (rest : List HostEvent) :
      blockStep { s with agenda := rest } = .next { s with agenda := rest } := by
    rw [blockStep_of_rows (s := { s with agenda := rest }) hp hi]
    exact congrArg Host.Outcome.next
      (unpackOctet_without_room (h.withHostFields rest s.rdata s.draws) hp hi hcap _)
  exact ⟨fun p => congrArg Host.Outcome.next (unpackOctet_without_room h hp hi hcap p),
    fun hr ha => (step_block hr ha).trans (hblock s.agenda), fun hr rest ha => (step_event hr ha).trans (hblock rest)⟩

/-! ### The block's writes -/

theorem rowAdvance_wptr (s : State) : (rowAdvance s).wptr = s.wptr := by
  obtain ⟨-, e⟩ | ⟨-, -, e⟩ | ⟨-, -, e⟩ := rowAdvance_cases s <;> rw [e]
  unfold endCheck
  split <;> rfl

/-- The block writes between the write position before its move and the one after it, and in the bitmap only. -/
def WritesUpToWptr (s t : State) : Prop :=
  s.wptr.toNat ≤ t.wptr.toNat ∧ ∀ a, t.output.read a ≠ s.output.read a → s.busy = true ∧ a < t.wptr.toNat

theorem writesUpToWptr_of_output_eq {s t : State} (hw : s.wptr.toNat ≤ t.wptr.toNat) (ho : t.output = s.output) :
    WritesUpToWptr s t := ⟨hw, fun a ha => absurd (congrArg (Memory.read · a) ho) ha⟩

theorem wptr_le_of_inHeader {s : State} (h : Sound s) (hp : inHeader s.phase = true) (t : State) :
    s.wptr.toNat ≤ t.wptr.toNat := by
  obtain ⟨-, -, hw⟩ := h.header_at hp
  rw [hw]
  exact Nat.zero_le _

theorem unpackOctet_writesUpToWptr {s : State} (h : Sound s) (hp : s.phase = .rows) (hi : s.pos.toNat < s.inLen.toNat)
    (p : Byte) : WritesUpToWptr s (unpackOctet p s) := by
  by_cases ha : admitted s.platform.outCap (pixelWrites p s) = true
  · rw [unpackOctet_admitted hi ha]
    have hend : (s.wptr + BitVec.ofNat 34 (4 * (pixelWrites p s).length)).toNat =
        s.wptr.toNat + 4 * activeLanes s.width.toNat s.xb.toNat := by
      rw [pixelWrites_length]
      exact laneAddress_toNat h hp le_rfl
    rw [WritesUpToWptr, rowAdvance_wptr, rowAdvance_ignoresMemories.output_eq, writePixels_wptr, hend]
    refine ⟨Nat.le_add_right _ _, fun a ha => ⟨by simp [State.busy, hp, phaseBusy], ?_⟩⟩
    by_contra hge
    refine ha (pixelFold_other _ _ a fun w hw => ?_)
    obtain ⟨j, hj, e⟩ := mem_pixelWrites h hp hw
    omega
  · rw [unpackOctet_stuck hi ha]
    exact writesUpToWptr_of_output_eq le_rfl rfl

theorem BlockMove.writesUpToWptr {s t : State} (m : BlockMove s t) (h : Sound s) : WritesUpToWptr s t := by
  have header {f : State → State} (hp : inHeader s.phase = true) (hf : IgnoresMemories f) : WritesUpToWptr s (f s) :=
    writesUpToWptr_of_output_eq (wptr_le_of_inHeader h hp _) (hf.output_eq s)
  cases m with
  | rest | endOfInput => exact writesUpToWptr_of_output_eq le_rfl rfl
  | varintCont g _ hp =>
    exact header (by rcases hp with hp | hp | hp <;> rw [hp] <;> rfl) (varintContinue_ignoresMemories g)
  | typeLast g _ hp => exact header (by rw [hp]; rfl) (.varintLast g acceptType_ignoresMemories)
  | fixZero _ hp => exact header (by rw [hp]; rfl) (.withOctet .outOfBounds fun _ _ _ => rfl)
  | fixNonzero _ hp => exact header (by rw [hp]; rfl) fixNonzero_ignoresMemories
  | widthLast g _ hp => exact header (by rw [hp]; rfl) (.varintLast g fun _ _ _ _ => rfl)
  | heightLast g _ hp => exact header (by rw [hp]; rfl) (.varintLast g acceptHeight_ignoresMemories)
  | rowByte p hi hp => exact unpackOctet_writesUpToWptr h hp hi p

/-! ### The unordered bytes -/

theorem BlockMove.sync_unseen {s t : State} (m : BlockMove s t) : t.sync = s.sync ∧ t.unseen = s.unseen := by
  obtain h | ⟨-, h⟩ := m.movesPastAtMostOneOctet <;>
    exact ⟨congrArg (·.2.2.2.2.2.2.1) h, congrArg (·.2.2.2.2.2.2.2.1) h⟩

theorem BlockMove.unorderedBelow_le {s t : State} (m : BlockMove s t) (h : Sound s) :
    s.unorderedBelow ≤ t.unorderedBelow := by
  obtain ⟨hsync, hunseen⟩ := m.sync_unseen
  have hw := (m.writesUpToWptr h).1
  unfold State.unorderedBelow
  rw [hsync, hunseen]
  split
  · exact max_le_max_left _ hw
  · exact le_rfl

/-- During a decode everything below WPTR is unordered, so the block's writes are. -/
theorem BlockMove.lt_unorderedBelow {s t : State} (m : BlockMove s t) (h : Sound s) {a : Nat}
    (ha : t.output.read a ≠ s.output.read a) : a < t.unorderedBelow := by
  obtain ⟨hb, hlt⟩ := (m.writesUpToWptr h).2 a ha
  have hpending : t.sync = .pending := m.sync_unseen.1.trans (h.sync_busy hb)
  rw [State.unorderedBelow, if_pos hpending]
  exact lt_max_of_lt_right hlt

/-- Of the moves of an agenda's entry the block's turn and the host's output write change the output space. -/
theorem EventMove.lt_unorderedBelow {s t : State} {e : HostEvent} (m : EventMove s e t) (h : Sound s)
    (hne : ∀ a b, e ≠ .writeOutput a b) {a : Nat} (ha : t.output.read a ≠ s.output.read a) :
    a < t.unorderedBelow := by
  cases m with
  | block hs => exact (blockMove_of_blockStep hs).lt_unorderedBelow h ha
  | writeOutput a b => exact absurd rfl (hne a b)
  | _ => exact absurd rfl ha

theorem registerRead_next {s t : State} {offset bytes : Nat} {data : Word}
    (h : registerAccess false offset bytes data s = .next t) :
    bytes = 4 ∧ offset < 64 ∧ t = hostReadWord (BitVec.ofNat 6 offset) s := by
  obtain ⟨-, e⟩ | ⟨hb, -, ho, e⟩ := registerAccess_cases false offset bytes data s <;> rw [e] at h
  · cases h
  · exact ⟨hb, ho, exec_readReg_next h⟩

/-- No entry of the agenda but a read of STATUS in DONE or ERROR orders a byte (20_memory.md R63). -/
theorem unorderedBelow_le_of_runEvent {s t : State} {e : HostEvent} (he : runEvent e s = .next t) (h : Sound s)
    (hne : (∀ data, e ≠ .register false 0x04 4 data) ∨ (s.phase ≠ .done ∧ s.phase ≠ .error)) :
    s.unorderedBelow ≤ t.unorderedBelow := by
  cases eventMove_of_runEvent he with
  | block hs => exact (blockMove_of_blockStep hs).unorderedBelow_le h
  | reset => exact (resetBlock_unorderedBelow s).ge
  | start => exact (startDecode_unorderedBelow s).ge
  | readWindow offset bytes data =>
    obtain ⟨rfl, ho, -⟩ := registerRead_next he
    have hoff : BitVec.ofNat 6 offset ≠ statusOffset ∨ (s.phase ≠ .done ∧ s.phase ≠ .error) := by
      refine hne.imp_left fun hne heq => hne data ?_
      have heq : offset % 64 = 4 := congrArg BitVec.toNat heq
      rw [show offset = 4 by omega]
    exact (hostReadWord_unordered hoff).2.ge
  | _ => exact le_rfl

/-- Settles O47: the block's writes end at WPTR, below `unorderedBelow` while the decode is pending, and only the STATUS
read at its end lowers the bound. -/
theorem unorderedBytesCoverTheBlocksWrites : Obligations.UnorderedBytesCoverTheBlocksWrites := by
  intro s t h hs
  obtain ⟨-, ⟨ha, hb⟩ | ⟨e, rest, ha, he⟩⟩ := step_next hs
  · have m := blockMove_of_blockStep hb
    exact ⟨fun a hne _ => m.lt_unorderedBelow h hne, fun _ => m.unorderedBelow_le h⟩
  · have h' : Sound { s with agenda := rest } := h.withHostFields rest s.rdata s.draws
    refine ⟨fun a hne hw => ?_, fun hne => ?_⟩
    · exact (eventMove_of_runEvent he).lt_unorderedBelow h' (fun a' b heq => hw a' b rest (heq ▸ ha)) hne
    · exact unorderedBelow_le_of_runEvent (s := { s with agenda := rest }) he h'
        (hne.imp_left fun hne data heq => hne data rest (heq ▸ ha))

end Sys2Proof.Machine
end

section
/-! PROOFS. The decoder and the encoder are inverse to each other, and the decoder follows the mask and match pairs of
the opcode table (30_encoding.md R71, R80, R85). -/

namespace Sys2Proof.Machine

/-! ### The rows of a varint and of CTRL, field by field -/

theorem encode_typeCont (g : BitVec 7) : encode (.typeCont g) = .step (stepWord .type (1#1 ++ g)) :=
  congrArg _ BitVec.append_assoc

theorem encode_typeLast (g : BitVec 7) : encode (.typeLast g) = .step (stepWord .type (0#1 ++ g)) :=
  congrArg _ BitVec.append_assoc

theorem encode_widthCont (g : BitVec 7) : encode (.widthCont g) = .step (stepWord .width (1#1 ++ g)) :=
  congrArg _ BitVec.append_assoc

theorem encode_widthLast (g : BitVec 7) : encode (.widthLast g) = .step (stepWord .width (0#1 ++ g)) :=
  congrArg _ BitVec.append_assoc

theorem encode_heightCont (g : BitVec 7) : encode (.heightCont g) = .step (stepWord .height (1#1 ++ g)) :=
  congrArg _ BitVec.append_assoc

theorem encode_heightLast (g : BitVec 7) : encode (.heightLast g) = .step (stepWord .height (0#1 ++ g)) :=
  congrArg _ BitVec.append_assoc

@[simp] theorem octetC_append (c : BitVec 1) (g : BitVec 7) : octetC (c ++ g) = c.getLsbD 0 :=
  BitVec.getLsbD_append (x := c) (y := g)

@[simp] theorem octetG_append (c : BitVec 1) (g : BitVec 7) : octetG (c ++ g) = g :=
  BitVec.extractLsb'_append_eq_right

/-- A varint octet is its continuation bit and its group (30_encoding.md R71). -/
theorem append_octetG {o : Byte} {c : BitVec 1} (h : octetC o = c.getLsbD 0) : (c ++ octetG o : BitVec 8) = o := by
  apply BitVec.eq_of_getLsbD_eq
  intro i hi
  rw [BitVec.getLsbD_append (x := c)]
  by_cases h7 : i < 7
  · simp [octetG, h7]
  · obtain rfl : i = 7 := by omega
    simpa [octetC] using h.symm

theorem ctrl_start_bit (ign : BitVec 31) (b : BitVec 1) : (ign ++ b : BitVec 32).getLsbD 0 = b.getLsbD 0 :=
  BitVec.getLsbD_append (x := ign) (y := b)

theorem ctrl_ignored (ign : BitVec 31) (b : BitVec 1) : (ign ++ b : BitVec 32).extractLsb' 1 31 = ign :=
  BitVec.extractLsb'_append_eq_left

/-- A datum of CTRL is its ignored bits and the START bit (43_host.md R162, R163). -/
theorem ctrl_append {d : Word} {b : BitVec 1} (h : d.getLsbD 0 = b.getLsbD 0) :
    (d.extractLsb' 1 31 ++ b : BitVec 32) = d := by
  apply BitVec.eq_of_getLsbD_eq
  intro i hi
  rw [BitVec.getLsbD_append (y := b)]
  by_cases h0 : i < 1
  · obtain rfl : i = 0 := by omega
    simpa using h.symm
  · rw [if_neg h0, BitVec.getLsbD_extractLsb', decide_eq_true (show i - 1 < 31 by omega), Bool.true_and,
      Nat.add_sub_cancel' (Nat.le_of_not_lt h0)]

/-! ### The decoder on the encoder's words -/

/-- Each FIX row is the octets with their highest set bit at one position (30_encoding.md R80). -/
theorem decode_encode_fix {i : Instr} (h : i = .fixZero ∨ isFixNonzeroRow i = true) : decode (encode i) = .ok i := by
  obtain rfl | h := h
  · rfl
  cases i with
  | fixNonzeroB7 low | fixNonzeroB6 low | fixNonzeroB5 low | fixNonzeroB4 low | fixNonzeroB3 low | fixNonzeroB2 low
  | fixNonzeroB1 low =>
    clear h
    revert low
    decide +kernel
  | fixNonzeroB0 => rfl
  | _ => cases h

/-- The offsets of the register window, one row of write each (10_state.md R32). -/
theorem aligned_ne_of_offsetReadOnly {off : BitVec 6} (h : offsetReadOnly off = true) :
    offsetAligned off = true ∧ off ≠ 0x00#6 ∧ off ≠ 0x04#6 ∧ off ≠ 0x08#6 ∧ off ≠ 0x0C#6 := by
  revert off
  decide

theorem aligned_ne_of_offsetReserved {off : BitVec 6} (h : offsetReserved off = true) :
    offsetAligned off = true ∧ off ≠ 0x00#6 ∧ off ≠ 0x04#6 ∧ off ≠ 0x08#6 ∧ off ≠ 0x0C#6 ∧
      offsetReadOnly off = false := by
  revert off
  decide

theorem offsetReserved_of_others {off : BitVec 6} (ha : offsetAligned off = true) (h0 : off ≠ 0x00#6)
    (h4 : off ≠ 0x04#6) (h8 : off ≠ 0x08#6) (hC : off ≠ 0x0C#6) (hro : ¬offsetReadOnly off = true) :
    offsetReserved off = true := by
  revert off
  decide

theorem decodeAccess_write {off : BitVec 6} (h : offsetAligned off = true) (data : Word) :
    decodeAccess true off data = .ok (decodeHostWrite off data) := if_pos h

theorem decodeHostWrite_ctrl (data : Word) :
    decodeHostWrite 0x00#6 data =
      if data.getLsbD 0 then .start (data.extractLsb' 1 31) else .ctrlWriteZero (data.extractLsb' 1 31) := rfl

theorem decode_encode_host {i : Instr} {wr : Bool} {off : BitVec 6} {data : Word}
    (he : encode i = .host (hostWord wr off data)) (h : decodeAccess wr off data = .ok i) :
    decode (encode i) = .ok i := by
  rw [he, decode_hostWord, h]

/-- Settles O1: row by row; an octet or a datum is taken apart again into the fields it was put together from. -/
theorem decodeReadsBackEncode : Obligations.DecodeReadsBackEncode := by
  intro i hw
  cases i with
  | typeCont g => rw [encode_typeCont, decode_stepWord]; simp [decodeOctet]
  | typeLast g => rw [encode_typeLast, decode_stepWord]; simp [decodeOctet]
  | widthCont g => rw [encode_widthCont, decode_stepWord]; simp [decodeOctet]
  | widthLast g => rw [encode_widthLast, decode_stepWord]; simp [decodeOctet]
  | heightCont g => rw [encode_heightCont, decode_stepWord]; simp [decodeOctet]
  | heightLast g => rw [encode_heightLast, decode_stepWord]; simp [decodeOctet]
  | fixZero => exact decode_encode_fix (.inl rfl)
  | fixNonzeroB7 | fixNonzeroB6 | fixNonzeroB5 | fixNonzeroB4 | fixNonzeroB3 | fixNonzeroB2 | fixNonzeroB1
  | fixNonzeroB0 => exact decode_encode_fix (.inr rfl)
  | rowByte p => exact decode_stepWord .rows p
  | readReg off data => exact (decode_hostWord false off data).trans (if_pos hw)
  | start ign =>
    refine decode_encode_host rfl ((decodeAccess_write rfl _).trans ?_)
    rw [decodeHostWrite_ctrl, ctrl_start_bit, if_pos (by decide), ctrl_ignored]
  | ctrlWriteZero ign =>
    refine decode_encode_host rfl ((decodeAccess_write rfl _).trans ?_)
    rw [decodeHostWrite_ctrl, ctrl_start_bit, if_neg (by decide), ctrl_ignored]
  | writeIgnoredStatus data | writeIgnoredErrcode data | writeInLen data => exact decode_encode_host rfl rfl
  | writeIgnoredRo off data =>
    have hw : offsetReadOnly off = true := hw
    obtain ⟨ha, h0, h4, h8, hC⟩ := aligned_ne_of_offsetReadOnly hw
    refine decode_encode_host rfl ((decodeAccess_write ha _).trans ?_)
    simp [decodeHostWrite, h0, h4, h8, hC, hw]
  | writeIgnoredRsvd off data =>
    obtain ⟨ha, h0, h4, h8, hC, hro⟩ := aligned_ne_of_offsetReserved hw
    refine decode_encode_host rfl ((decodeAccess_write ha _).trans ?_)
    simp [decodeHostWrite, h0, h4, h8, hC, hro]

/-! ### The encoder on the decoder's instructions -/

theorem encode_decodeFix (o : Byte) : (decodeFix o).wf = true ∧ encode (decodeFix o) = .step (stepWord .fix o) := by
  revert o
  decide +kernel

theorem encode_of_decodeOctet {ph : Phase} {o : Byte} {i : Instr} (h : decodeOctet ph o = .ok i) :
    i.wf = true ∧ encode i = .step (stepWord ph o) := by
  cases ph <;> cases h
  case fix => exact encode_decodeFix o
  case rows => exact ⟨rfl, rfl⟩
  all_goals
    cases hc : octetC o
    · have ho : (0#1 ++ octetG o : BitVec 8) = o := append_octetG hc
      simp [Instr.wf, encode_typeLast, encode_widthLast, encode_heightLast, ho]
    · have ho : (1#1 ++ octetG o : BitVec 8) = o := append_octetG hc
      simp [Instr.wf, encode_typeCont, encode_widthCont, encode_heightCont, ho]

theorem encode_decodeHostWrite {off : BitVec 6} (ha : offsetAligned off = true) (data : Word) :
    (decodeHostWrite off data).wf = true ∧ encode (decodeHostWrite off data) = .host (hostWord true off data) := by
  by_cases h0 : off = 0x00#6
  · rw [h0, decodeHostWrite_ctrl]
    split_ifs with hb
    · exact ⟨rfl, congrArg (TableWord.host ∘ hostWord true 0x00#6) (ctrl_append (b := 1#1) hb)⟩
    · exact ⟨rfl, congrArg (TableWord.host ∘ hostWord true 0x00#6)
        (ctrl_append (b := 0#1) (Bool.eq_false_of_not_eq_true hb))⟩
  rw [decodeHostWrite, if_neg h0]
  split_ifs with h4 h8 hC hro
  · exact ⟨rfl, by rw [h4]; rfl⟩
  · exact ⟨rfl, by rw [h8]; rfl⟩
  · exact ⟨rfl, by rw [hC]; rfl⟩
  · exact ⟨hro, rfl⟩
  · exact ⟨offsetReserved_of_others ha h0 h4 h8 hC hro, rfl⟩

theorem encode_of_decodeAccess {wr : Bool} {off : BitVec 6} {data : Word} {i : Instr}
    (h : decodeAccess wr off data = .ok i) : i.wf = true ∧ encode i = .host (hostWord wr off data) := by
  by_cases ha : offsetAligned off = true
  · rw [decodeAccess, if_pos ha] at h
    cases h
    cases wr
    · exact ⟨ha, rfl⟩
    · exact encode_decodeHostWrite ha data
  · rw [decodeAccess, if_neg ha] at h
    cases h

/-- Settles O2: a word is its fields, and what they decode to is encoded in them. -/
theorem encodeReadsBackDecode : Obligations.EncodeReadsBackDecode := by
  intro w i h
  cases w with
  | step w => exact stepWord_eta w ▸ encode_of_decodeOctet h
  | host w => exact hostWord_eta w ▸ encode_of_decodeAccess h

/-! ### The opcode table -/

/-- Rows with their own mnemonics, no two of which select one word. -/
def Separate (rows : List TableRow) : Prop :=
  ∀ r ∈ rows, ∀ r' ∈ rows, r.mnemonic = r'.mnemonic ∨ r.value &&& r'.mask = r'.value &&& r.mask → r = r'

theorem stepRows_separate : Separate stepRows := by unfold Separate; decide +kernel

theorem hostRows_separate : Separate hostRows := by unfold Separate; decide +kernel

theorem selects_iff (r : TableRow) (n : Nat) : r.selects n = true ↔ n &&& r.mask = r.value := beq_iff_eq

theorem Separate.eq_of_selects {rows : List TableRow} (hs : Separate rows) {r r' : TableRow} (hr : r ∈ rows)
    (hr' : r' ∈ rows) {n : Nat} (h : r.selects n = true) (h' : r'.selects n = true) : r = r' := by
  rw [selects_iff] at h h'
  refine hs r hr r' hr' (.inr ?_)
  rw [← h, ← h', Nat.land_assoc, Nat.land_assoc, Nat.land_comm r.mask]

/-- A row of a table with separate rows has exactly the words that decode to its mnemonic, when what a word decodes to
names a row that selects it, and every selected word decodes. -/
theorem Separate.selects_iff_mnemonic {rows : List TableRow} (hs : Separate rows) {n : Nat}
    {d : Except DecodeRefusal Instr}
    (hrow : ∀ i, d = .ok i → ∃ r ∈ rows, r.mnemonic = i.mnemonic ∧ r.selects n = true)
    (hdec : ∀ r ∈ rows, r.selects n = true → ∃ i, d = .ok i) {r : TableRow} (hr : r ∈ rows) :
    r.selects n = true ↔ ∃ i, d = .ok i ∧ i.mnemonic = r.mnemonic := by
  constructor
  · intro h
    obtain ⟨i, hi⟩ := hdec r hr h
    obtain ⟨r', hr', hm, h'⟩ := hrow i hi
    exact ⟨i, hi, by rw [← hm, hs.eq_of_selects hr hr' h h']⟩
  · rintro ⟨i, hi, hm⟩
    obtain ⟨r', hr', hm', h'⟩ := hrow i hi
    rwa [hs r hr r' hr' (.inl (hm.symm.trans hm'.symm))]

/-- A row selects a word field by field. -/
theorem field_of_selects {r : TableRow} {k : Nat} {w : BitVec k} (h : r.selects w.toNat = true) (start len : Nat) :
    w.extractLsb' start len &&& (BitVec.ofNat k r.mask).extractLsb' start len =
      (BitVec.ofNat k r.value).extractLsb' start len := by
  rw [← (selects_iff r _).mp h, BitVec.ofNat_and, BitVec.extractLsb'_and, BitVec.ofNat_toNat, BitVec.setWidth_eq]

/-- Every well-formed instruction's word is selected by its own row. -/
theorem row_of_instr (i : Instr) : Laws.RowOf.Statement i :=
  match i with
  | .typeCont g => Laws.RowOf.typeCont g
  | .typeLast g => Laws.RowOf.typeLast g
  | .fixZero => Laws.RowOf.fixZero
  | .fixNonzeroB7 low => Laws.RowOf.fixNonzeroB7 low
  | .fixNonzeroB6 low => Laws.RowOf.fixNonzeroB6 low
  | .fixNonzeroB5 low => Laws.RowOf.fixNonzeroB5 low
  | .fixNonzeroB4 low => Laws.RowOf.fixNonzeroB4 low
  | .fixNonzeroB3 low => Laws.RowOf.fixNonzeroB3 low
  | .fixNonzeroB2 low => Laws.RowOf.fixNonzeroB2 low
  | .fixNonzeroB1 low => Laws.RowOf.fixNonzeroB1 low
  | .fixNonzeroB0 => Laws.RowOf.fixNonzeroB0
  | .widthCont g => Laws.RowOf.widthCont g
  | .widthLast g => Laws.RowOf.widthLast g
  | .heightCont g => Laws.RowOf.heightCont g
  | .heightLast g => Laws.RowOf.heightLast g
  | .rowByte p => Laws.RowOf.rowByte p
  | .readReg off data => Laws.RowOf.readReg off data
  | .start ign => Laws.RowOf.start ign
  | .ctrlWriteZero ign => Laws.RowOf.ctrlWriteZero ign
  | .writeIgnoredStatus data => Laws.RowOf.writeIgnoredStatus data
  | .writeIgnoredErrcode data => Laws.RowOf.writeIgnoredErrcode data
  | .writeInLen data => Laws.RowOf.writeInLen data
  | .writeIgnoredRo off data => Laws.RowOf.writeIgnoredRo off data
  | .writeIgnoredRsvd off data => Laws.RowOf.writeIgnoredRsvd off data

theorem row_of_step {w : BitVec 11} {i : Instr} (h : decode (.step w) = .ok i) :
    ∃ r ∈ stepRows, r.mnemonic = i.mnemonic ∧ r.selects w.toNat = true := by
  obtain ⟨hw, he⟩ := encodeReadsBackDecode _ i h
  have hrow := row_of_instr i hw
  rwa [he] at hrow

theorem row_of_host {w : BitVec 39} {i : Instr} (h : decode (.host w) = .ok i) :
    ∃ r ∈ hostRows, r.mnemonic = i.mnemonic ∧ r.selects w.toNat = true := by
  obtain ⟨hw, he⟩ := encodeReadsBackDecode _ i h
  have hrow := row_of_instr i hw
  rwa [he] at hrow

/-- Every STEP row fixes the phase to one of 1 to 5 (30_encoding.md R80). -/
theorem decode_of_step_row {r : TableRow} (hr : r ∈ stepRows) {w : BitVec 11} (h : r.selects w.toNat = true) :
    ∃ i, decode (.step w) = .ok i := by
  have hphase : ∀ r ∈ stepRows, ∀ b : BitVec 3,
      b &&& (BitVec.ofNat 11 r.mask).extractLsb' 8 3 = (BitVec.ofNat 11 r.value).extractLsb' 8 3 →
        phaseBusy (Phase.ofBits b) = true := by decide
  exact decodeOctet_busy (hphase r hr _ (field_of_selects h 8 3)) _

/-- Every HOST row fixes OFF[1:0] to 0 (30_encoding.md R85). -/
theorem decode_of_host_row {r : TableRow} (hr : r ∈ hostRows) {w : BitVec 39} (h : r.selects w.toNat = true) :
    ∃ i, decode (.host w) = .ok i := by
  have haligned : ∀ r ∈ hostRows, ∀ off : BitVec 6,
      off &&& (BitVec.ofNat 39 r.mask).extractLsb' 32 6 = (BitVec.ofNat 39 r.value).extractLsb' 32 6 →
        offsetAligned off = true := by decide
  exact ⟨_, if_pos (haligned r hr _ (field_of_selects h 32 6))⟩

/-- Settles O3: the STEP rows are separate, and each covers the phase. -/
theorem stepWordsFollowTheTable : Obligations.StepWordsFollowTheTable := fun _ _ hr =>
  stepRows_separate.selects_iff_mnemonic (fun _ => row_of_step) (fun _ hr => decode_of_step_row hr) hr

/-- Settles O4: the HOST rows are separate, and each covers the alignment. -/
theorem hostWordsFollowTheTable : Obligations.HostWordsFollowTheTable := fun _ _ hr =>
  hostRows_separate.selects_iff_mnemonic (fun _ => row_of_host) (fun _ hr => decode_of_host_row hr) hr

/-! ### The words outside the table -/

theorem decodeOctet_ok_iff (ph : Phase) (o : Byte) :
    (∃ i, decodeOctet ph o = .ok i) ↔ 1 ≤ ph.bits.toNat ∧ ph.bits.toNat ≤ 5 := by
  have hbits : phaseBusy ph = true ↔ 1 ≤ ph.bits.toNat ∧ ph.bits.toNat ≤ 5 := by cases ph <;> decide
  rw [← hbits]
  exact ⟨fun ⟨_, h⟩ => decodeOctet_ok h, fun h => decodeOctet_busy h o⟩

theorem decodeOctet_rest {ph : Phase} (h : ph.bits.toNat = 0 ∨ ph.bits.toNat = 6 ∨ ph.bits.toNat = 7) (o : Byte) :
    decodeOctet ph o = .error .noStepInPhase := by
  cases ph with
  | idle | done | error => rfl
  | _ => simp [Phase.bits] at h

theorem decodeAccess_misaligned {off : BitVec 6} (h : off.toNat % 4 ≠ 0) (wr : Bool) (data : Word) :
    decodeAccess wr off data = .error .misalignedOffset := if_neg (mt (offsetAligned_iff off).mp h)

theorem decodeAccess_ok_iff (wr : Bool) (off : BitVec 6) (data : Word) :
    (∃ i, decodeAccess wr off data = .ok i) ↔ off.toNat % 4 = 0 := by
  constructor
  · rintro ⟨i, h⟩
    by_contra hm
    rw [decodeAccess_misaligned hm] at h
    cases h
  · exact fun h => ⟨_, if_pos ((offsetAligned_iff off).mpr h)⟩

/-- Settles O5: the phase decides of a STEP word, the offset of a HOST word. -/
theorem wordsOutsideTheTableAreRejected : Obligations.WordsOutsideTheTableAreRejected := by
  refine ⟨fun ph o => ?_, fun wr off data => ?_⟩
  · rw [decode_stepWord]
    exact ⟨decodeOctet_ok_iff ph o, fun h => decodeOctet_rest h o⟩
  · rw [decode_hostWord]
    exact ⟨decodeAccess_ok_iff wr off data, fun h => decodeAccess_misaligned h wr data⟩

/-- Settles O6: each word is evaluated. -/
theorem sampleWordsDecode : Obligations.SampleWordsDecode :=
  ⟨rfl, rfl, rfl, rfl, rfl, rfl, rfl, rfl, rfl⟩

end Sys2Proof.Machine
end

section
/-! PROOFS. What the next step runs (30_encoding.md R80, R85, 43_host.md R160): the row that PHASE and the octet at POS
select, the row of a host access, nothing at rest, and the placed word first after reset. -/

namespace Sys2Proof.Machine

/-- Settles O7: the step is the block's turn, and the block runs the row of its octet. -/
theorem blockStepRunsTheSelectedRow : Obligations.BlockStepRunsTheSelectedRow := by
  intro s i hr hb hi hd
  rw [decode_stepWord] at hd
  exact ⟨fun ha => (step_block hr ha).trans (blockStep_octet hb hi hd),
    fun rest ha => (step_event hr ha).trans (blockStep_octet (s := { s with agenda := rest }) hb hi hd)⟩

/-- A 4-byte access at an offset of the window runs its HOST word's instruction. -/
theorem registerAccess_word {wr : Bool} {off : BitVec 6} {data : Word} {i : Instr}
    (hd : decode (.host (hostWord wr off data)) = .ok i) (s : State) :
    registerAccess wr off.toNat regAccessBytes data s = exec i s := by
  unfold registerAccess
  rw [if_pos ⟨rfl, off.isLt⟩, BitVec.ofNat_toNat, BitVec.setWidth_eq, hd]

/-- Settles O8: the step is the access at the agenda's head. -/
theorem hostAccessRunsItsRow : Obligations.HostAccessRunsItsRow := by
  intro s wr off data rest i hr ha hd
  exact (step_event hr ha).trans (registerAccess_word hd { s with agenda := rest })

/-- Settles O10: a block that is not BUSY has no step. -/
theorem restingBlockTakesNoStep : Obligations.RestingBlockTakesNoStep := by
  intro s hr hp
  have hb : s.busy = false := resting_not_busy hp
  exact ⟨fun ha => (step_block hr ha).trans (blockStep_rest hb),
    fun rest ha => (step_event hr ha).trans (blockStep_rest (s := { s with agenda := rest }) hb)⟩

/-! ### The placed word -/

theorem withFetchWord_step (s : State) (w : BitVec 11) : s.withFetchWord 16 w.toNat = placeStepWord w s := by
  have hw : TableWord.ofNat 16 w.toNat = some (.step w) := by
    rw [TableWord.ofNat, if_pos (by decide), if_pos w.isLt, BitVec.ofNat_toNat, BitVec.setWidth_eq]
  rw [State.withFetchWord, hw]
  rfl

theorem withFetchWord_host (s : State) (w : BitVec 39) : s.withFetchWord 40 w.toNat = placeHostWord w s := by
  have hw : TableWord.ofNat 40 w.toNat = some (.host w) := by
    rw [TableWord.ofNat, if_neg (by decide), if_pos w.isLt, BitVec.ofNat_toNat, BitVec.setWidth_eq]
  rw [State.withFetchWord, hw]
  rfl

/-- Whether the step can move is a matter of ERRCODE, the platform and IN_LEN alone. -/
theorem runnable_of_eq {s t : State} (he : t.errcode = s.errcode) (hp : t.platform = s.platform)
    (hl : t.inLen = s.inLen) (h : s.runnable) : t.runnable := by
  rw [State.runnable, State.spacesDisjoint] at h ⊢
  rwa [he, hp, hl]

/-- Settles O12: the placed word's entry is the agenda's head, and the block finds the placed octet at POS = 0. -/
theorem placedWordRunsFirstAfterReset : Obligations.PlacedWordRunsFirstAfterReset := by
  constructor
  · intro w i hd
    have h1 : { State.reset with inLen := 1#32 }.runnable := by decide
    have hr : (placeStepWord w State.reset).runnable := runnable_of_eq rfl rfl rfl h1
    rw [withFetchWord_step]
    refine (step_event hr rfl).trans ?_
    exact blockStep_octet (s := { placeStepWord w State.reset with agenda := [] }) (decodeOctet_ok hd) Nat.zero_lt_one hd
  · intro w i hd
    have h0 : State.reset.runnable := by decide
    have hr : (placeHostWord w State.reset).runnable := runnable_of_eq rfl rfl rfl h0
    rw [withFetchWord_host]
    refine (step_event hr rfl).trans ?_
    exact registerAccess_word ((hostWord_eta w).symm ▸ hd) State.reset

end Sys2Proof.Machine
end

section
/-! PROOFS. A width varint of any length is read as the number its groups denote (30_encoding.md R71 to R74,
40_bytecursor.md R101 to R104). -/

namespace Sys2Proof.Machine

/-! ### Runs -/

theorem run_succ_of_step {s t : State} (h : step s = .next t) (n : Nat) :
    Sys2Proof.core.run (n + 1) s = Sys2Proof.core.run n t := by
  have h : Sys2Proof.core.step s = .next t := h
  simp only [Host.Core.run, h]

/-- A block at rest stays as it is. -/
theorem run_of_rest {s : State} (hr : s.runnable) (ha : s.agenda = []) (hb : s.busy = false) (n : Nat) :
    Sys2Proof.core.run n s = .next s := by
  induction n with
  | zero => rfl
  | succ n ih => rw [run_succ_of_step ((step_block hr ha).trans (blockStep_rest hb)), ih]

/-! ### The guard and the value of the groups -/

/-- The guard passes every accumulator below 2^24 (40_bytecursor.md R102). -/
theorem not_guardFires_of_lt {acc : Word} (h : acc.toNat < 2 ^ 24) : guardFires acc = false := by
  have hmask : ∀ i : Fin 32, i.val < 24 → accGuardMask.getLsbD i = false := by decide
  have hz : acc &&& accGuardMask = 0#32 := by
    apply BitVec.eq_of_getLsbD_eq
    intro i hi
    rw [BitVec.getLsbD_and]
    by_cases h24 : i < 24
    · rw [hmask ⟨i, hi⟩ h24, Bool.and_false, BitVec.getLsbD_zero]
    · have hbit : acc.getLsbD i = false :=
        Nat.testBit_lt_two_pow (Nat.lt_of_lt_of_le h (Nat.pow_le_pow_right (by decide) (Nat.le_of_not_lt h24)))
      rw [hbit, Bool.false_and, BitVec.getLsbD_zero]
  simp [guardFires, hz]

theorem withGroup_overflow {g : BitVec 7} {s : State} (k : Word → State → State) (hi : s.pos.toNat < s.inLen.toNat)
    (hg : guardFires s.acc = true) : withGroup g s k = raise .integerOverflow { s with pos := s.pos + 1#32 } :=
  (withOctet_octet _ _ hi).trans (if_pos hg)

theorem withGroup_accumulate {g : BitVec 7} {s : State} (k : Word → State → State) (hi : s.pos.toNat < s.inLen.toNat)
    (hg : guardFires s.acc = false) :
    withGroup g s k = k (accumulate s.acc g) { s with pos := s.pos + 1#32 } :=
  (withOctet_octet _ _ hi).trans (if_neg (Bool.eq_false_iff.mp hg))

/-- The number that groups denote after those already read, whose value is `a` (30_encoding.md R72). -/
def valueFrom (a : Nat) (gs : List (BitVec 7)) : Nat := gs.foldl (fun v g => v * 128 + g.toNat) a

theorem groupsValue_eq_valueFrom (gs : List (BitVec 7)) : groupsValue gs = valueFrom 0 gs := rfl

theorem valueFrom_cons (a : Nat) (g : BitVec 7) (gs : List (BitVec 7)) :
    valueFrom a (g :: gs) = valueFrom (a * 128 + g.toNat) gs := rfl

theorem le_valueFrom (a : Nat) (gs : List (BitVec 7)) : a ≤ valueFrom a gs := by
  induction gs generalizing a with
  | nil => exact Nat.le_refl a
  | cons g gs ih =>
    rw [valueFrom_cons]
    exact Nat.le_trans (by omega) (ih _)

/-! ### The octets of the varint -/

theorem inputHolds_of_input_eq {s t : State} (h : t.input = s.input) {os : List Byte} {a : Nat}
    (hs : s.inputHolds a os) : t.inputHolds a os := by
  induction os generalizing a with
  | nil => trivial
  | cons o os ih =>
    obtain ⟨ho, hos⟩ := hs
    exact ⟨by rw [← ho, State.inRead, State.inRead, h], ih hos⟩

/-- The block reads the width, and the octets of a varint with the groups `gs` are in the input from POS on. -/
structure AtWidthVarint (s : State) (gs : List (BitVec 7)) : Prop where
  runnable : s.runnable
  agenda : s.agenda = []
  phase : s.phase = .width
  inside : s.pos.toNat + gs.length ≤ s.inLen.toNat
  holds : s.inputHolds s.pos.toNat (varintOctets gs)

theorem AtWidthVarint.pos_lt {s : State} {g : BitVec 7} {gs : List (BitVec 7)} (h : AtWidthVarint s (g :: gs)) :
    s.pos.toNat < s.inLen.toNat := by
  have := h.inside
  rw [List.length_cons] at this
  omega

/-- The row of the next octet: the last group's is WIDTH_LAST, any other's WIDTH_CONT (41_header.md R129, R130). -/
theorem AtWidthVarint.step_eq {s : State} {g : BitVec 7} {gs : List (BitVec 7)} (h : AtWidthVarint s (g :: gs)) :
    step s = .next (if gs = [] then varintLast g s acceptWidth else varintContinue g s) := by
  have hb : s.busy = true := by simp [State.busy, h.phase, phaseBusy]
  have hrow {i : Instr} (hd : decodeOctet .width (s.inRead s.pos.toNat) = .ok i) : step s = exec i s :=
    (step_block h.runnable h.agenda).trans (blockStep_octet hb h.pos_lt (h.phase ▸ hd))
  have hholds := h.holds
  cases gs with
  | nil =>
    refine hrow (i := .widthLast g) ?_
    rw [hholds.1]
    simp [decodeOctet]
  | cons g' gs =>
    refine hrow (i := .widthCont g) ?_
    rw [hholds.1]
    simp [decodeOctet]

theorem AtWidthVarint.tail {s : State} {g g' : BitVec 7} {gs : List (BitVec 7)} (h : AtWidthVarint s (g :: g' :: gs))
    (acc : Word) : AtWidthVarint { s with pos := s.pos + 1#32, acc := acc } (g' :: gs) := by
  have hpos : (s.pos + 1#32).toNat = s.pos.toNat + 1 := pos_succ h.pos_lt
  refine ⟨h.runnable, h.agenda, h.phase, ?_, ?_⟩
  · have := h.inside
    simp only [List.length_cons, hpos] at this ⊢
    omega
  · obtain ⟨-, hos⟩ := h.holds
    simp only [hpos]
    exact inputHolds_of_input_eq (s := s) (t := { s with pos := s.pos + 1#32, acc := acc }) rfl hos

/-- The varint is read to its end when the number it denotes is below 2^31 (40_bytecursor.md R103, R104). -/
theorem AtWidthVarint.run_below {s : State} {gs : List (BitVec 7)} (h : AtWidthVarint s gs) (hne : gs ≠ [])
    (hv : valueFrom s.acc.toNat gs < 2 ^ 31) :
    Sys2Proof.core.run gs.length s = .next { s with
      pos := s.pos + BitVec.ofNat 32 gs.length, acc := 0#32
      width := BitVec.ofNat 32 (valueFrom s.acc.toNat gs), phase := .height } := by
  induction gs generalizing s with
  | nil => exact absurd rfl hne
  | cons g gs ih =>
    have hle := le_valueFrom (s.acc.toNat * 128 + g.toNat) gs
    rw [valueFrom_cons] at hv ⊢
    have hacc : s.acc.toNat < 2 ^ 24 := by omega
    have hg : guardFires s.acc = false := not_guardFires_of_lt hacc
    have hstep := h.step_eq
    rw [← accumulate_toNat hacc g] at hv ⊢
    cases gs with
    | nil =>
      rw [if_pos rfl, varintLast, withGroup_accumulate _ h.pos_lt hg] at hstep
      refine (run_succ_of_step hstep 0).trans ?_
      simp [valueFrom, acceptWidth, Host.Core.run]
    | cons g' gs =>
      rw [if_neg (by simp), varintContinue, withGroup_accumulate _ h.pos_lt hg] at hstep
      refine (run_succ_of_step hstep _).trans ((ih (h.tail (accumulate s.acc g)) (by simp) hv).trans ?_)
      simp only [BitVec.add_assoc, ← BitVec.ofNat_add, List.length_cons, Nat.add_comm 1]

/-- The guard fires inside a varint that denotes 2^31 or more, and the block rests from then on (40_bytecursor.md
R102). -/
theorem AtWidthVarint.run_overflow {s : State} {gs : List (BitVec 7)} (h : AtWidthVarint s gs) (hne : gs ≠ [])
    (hv : 2 ^ 31 ≤ valueFrom s.acc.toNat gs) :
    ∃ t, Sys2Proof.core.run gs.length s = .next t ∧ t.phase = .error ∧ t.errcode = 2#3 ∧ t.width = s.width ∧
      s.pos.toNat < t.pos.toNat ∧ t.pos.toNat ≤ s.pos.toNat + gs.length := by
  induction gs generalizing s with
  | nil => exact absurd rfl hne
  | cons g gs ih =>
    have hpos : (s.pos + 1#32).toNat = s.pos.toNat + 1 := pos_succ h.pos_lt
    have hstep := h.step_eq
    cases hg : guardFires s.acc with
    | true =>
      rw [varintLast, varintContinue, withGroup_overflow _ h.pos_lt hg, withGroup_overflow _ h.pos_lt hg, ite_self]
        at hstep
      have hrest := run_of_rest (s := raise .integerOverflow { s with pos := s.pos + 1#32 })
        ⟨code_ne_seven .integerOverflow, h.runnable.2⟩ h.agenda rfl gs.length
      refine ⟨_, (run_succ_of_step hstep _).trans hrest, rfl, rfl, rfl, ?_⟩
      simp only [raise_pos, hpos, List.length_cons]
      omega
    | false =>
      rw [valueFrom_cons, ← accumulate_toNat (acc_lt_of_not_guardFires hg)] at hv
      cases gs with
      | nil => exact absurd (accumulate_lt hg g) (Nat.not_lt.mpr hv)
      | cons g' gs =>
        rw [if_neg (by simp), varintContinue, withGroup_accumulate _ h.pos_lt hg] at hstep
        obtain ⟨t, hrun, hp, he, hw, hlt, hle⟩ := ih (h.tail (accumulate s.acc g)) (by simp) hv
        refine ⟨t, (run_succ_of_step hstep _).trans hrun, hp, he, hw, ?_⟩
        simp only [hpos, List.length_cons] at hlt hle ⊢
        omega

/-- Settles O24: from ACC = 0 the value of the groups read is the number they denote. -/
theorem widthVarintDenotesItsNumber : Obligations.WidthVarintDenotesItsNumber := by
  intro s gs hne hr ha hp hacc hi hin
  have h : AtWidthVarint s gs := ⟨hr, ha, hp, hi, hin⟩
  have hvalue : groupsValue gs = valueFrom s.acc.toNat gs := by
    rw [groupsValue_eq_valueFrom, hacc, BitVec.toNat_ofNat, Nat.zero_mod]
  rw [hvalue]
  refine ⟨fun hv => ?_, h.run_overflow hne⟩
  rw [h.run_below hne hv, ← hacc]

end Sys2Proof.Machine
end

section
/-! PROOFS. The pixels of an octet: the bytes of one (30_encoding.md R79), and the bits that give none (R77). -/

namespace Sys2Proof.Machine

/-- Settles O25: what each byte reads as after the write. -/
theorem pixelWriteStoresFourBytes : Obligations.PixelWriteStoresFourBytes := by
  refine fun m a bit => ⟨fun c hc => ?_, fun b hb => ?_⟩
  · rw [pixelWrite_read, if_pos (by omega), Nat.add_sub_cancel_left]
  · rw [pixelWrite_read, if_neg (by omega)]

/-- Only the bits of the active lanes are read. -/
theorem pixelWrites_congr {s : State} {p q : Byte}
    (h : ∀ j, j < 8 → s.xb.toNat + j < s.width.toNat → p.getLsbD (7 - j) = q.getLsbD (7 - j)) :
    pixelWrites p s = pixelWrites q s := by
  rw [pixelWrites_eq_map, pixelWrites_eq_map]
  refine List.map_congr_left fun j hj => ?_
  have hj : j < min 8 (s.width.toNat - s.xb.toNat) := List.mem_range.mp hj
  rw [laneBit, laneBit, h j (by omega) (by omega)]

/-- The octet acts through its pixels only (42_unpack.md R141). -/
theorem unpackOctet_congr {s : State} {p q : Byte} (h : pixelWrites p s = pixelWrites q s) :
    unpackOctet p s = unpackOctet q s := by
  have h1 : pixelWrites p { s with pos := s.pos + 1#32 } = pixelWrites q { s with pos := s.pos + 1#32 } := h
  simp only [unpackOctet, withOctet, h1]

/-- Settles O32: octets that agree in the row have the same pixels. -/
theorem paddingBitsHaveNoEffect : Obligations.PaddingBitsHaveNoEffect := fun _ _ _ h =>
  congrArg Host.Outcome.next (unpackOctet_congr (pixelWrites_congr h))

end Sys2Proof.Machine
end

section
/-! PROOFS. Reading one octet of the header (40_bytecursor.md R100 to R105): the end of the input comes before the overflow
guard, and the guard before the accumulator. -/

namespace Sys2Proof.Machine

/-! ### The overflow guard -/

theorem not_guardFires_iff_and (acc : Word) : guardFires acc = false ↔ acc &&& 0xFF000000#32 = 0#32 := by
  simp [guardFires, accGuardMask]

theorem not_guardFires_iff_lt (acc : Word) : guardFires acc = false ↔ acc.toNat < 2 ^ 24 :=
  ⟨acc_lt_of_not_guardFires, not_guardFires_of_lt⟩

/-- Settles O16: below 2^24 the shifted accumulator has room for the group, so nothing wraps. -/
theorem guardBoundsTheAccumulator : Obligations.GuardBoundsTheAccumulator := fun acc g =>
  ⟨not_guardFires_iff_lt acc,
    fun hg => ⟨accumulate_toNat (acc_lt_of_not_guardFires hg) g, accumulate_lt hg g⟩⟩

/-! ### The rows of a varint -/

/-- The six rows whose octet carries the group `g` (30_encoding.md R80). -/
def varintRows (g : BitVec 7) : List Instr :=
  [.typeCont g, .typeLast g, .widthCont g, .widthLast g, .heightCont g, .heightLast g]

/-- They differ only in what follows the guard (40_bytecursor.md R101). -/
theorem exec_varintRow {g : BitVec 7} {i : Instr} (h : i ∈ varintRows g) (s : State) :
    ∃ k, exec i s = .next (withGroup g s k) := by
  simp only [varintRows, List.mem_cons, List.not_mem_nil, or_false] at h
  obtain rfl | rfl | rfl | rfl | rfl | rfl := h <;> exact ⟨_, rfl⟩

/-- Settles O15: the guard comes before what the rows differ in. -/
theorem guardRaisesIntegerOverflow : Obligations.GuardRaisesIntegerOverflow := by
  intro s g i hrow hi hacc
  obtain ⟨k, e⟩ := exec_varintRow hrow s
  rw [e, withGroup_overflow k hi ((guardFires_iff s.acc).mpr hacc)]
  rfl

/-- Settles O14: in each of the three phases the row is the same continuation of the varint step. -/
theorem continuationOctetAccumulates : Obligations.ContinuationOctetAccumulates := by
  intro s g i hrow hi hacc
  have hexec : exec i s = .next (varintContinue g s) := by
    obtain rfl | rfl | rfl := hrow <;> rfl
  rw [hexec, varintContinue, withGroup_accumulate _ hi ((not_guardFires_iff_and s.acc).mpr hacc)]
  rfl

/-! ### The end of the input -/

theorem headerRow_cases {i : Instr} (h : isHeaderRow i = true) :
    (∃ g, i ∈ varintRows g) ∨ i = .fixZero ∨ isFixNonzeroRow i = true := by
  cases i <;> simp_all [isHeaderRow, isFixNonzeroRow, varintRows]

/-- Every header row begins with the octet read (40_bytecursor.md R100). -/
theorem exec_headerRow {i : Instr} (h : isHeaderRow i = true) (s : State) :
    ∃ k, exec i s = .next (withOctet .outOfBounds s k) := by
  obtain ⟨g, hrow⟩ | rfl | hrow := headerRow_cases h
  · obtain ⟨k, e⟩ := exec_varintRow hrow s
    exact ⟨_, e⟩
  · exact ⟨_, rfl⟩
  · exact ⟨_, exec_fixNonzero hrow s⟩

/-- Settles O17: the octet read fails before anything else in the row. -/
theorem headerRowsRaiseOutOfBounds : Obligations.HeaderRowsRaiseOutOfBounds := by
  intro s i hrow he
  obtain ⟨k, e⟩ := exec_headerRow hrow s
  rw [e, withOctet_end _ k he]
  rfl

/-- Settles O11: the step is the block's turn at the end of the input. -/
theorem endOfInputRaisesThePhasesError : Obligations.EndOfInputRaisesThePhasesError := by
  intro s hr hb he ha
  rw [step_block hr ha, blockStep_end hb he, raise, apply_ite ErrKind.code]
  rfl

end Sys2Proof.Machine
end

section
/-! PROOFS. The rows that complete a header field (41_header.md R123 to R134): what each answers, and that a header row
writes no field but its own. -/

namespace Sys2Proof.Machine

/-! ### The last octet of a varint -/

theorem decode_typeLast (g : BitVec 7) : decode (.step (stepWord .type (0#1 ++ g))) = .ok (.typeLast g) :=
  encode_typeLast g ▸ decodeReadsBackEncode (.typeLast g) rfl

theorem decode_widthLast (g : BitVec 7) : decode (.step (stepWord .width (0#1 ++ g))) = .ok (.widthLast g) :=
  encode_widthLast g ▸ decodeReadsBackEncode (.widthLast g) rfl

theorem decode_heightLast (g : BitVec 7) : decode (.step (stepWord .height (0#1 ++ g))) = .ok (.heightLast g) :=
  encode_heightLast g ▸ decodeReadsBackEncode (.heightLast g) rfl

/-- Past the end check and the guard, the phase's own rule gets the value with ACC cleared (40_bytecursor.md R104). -/
theorem varintLast_value {g : BitVec 7} {s : State} (k : Word → State → State) (hi : s.pos.toNat < s.inLen.toNat)
    (hacc : s.acc &&& 0xFF000000#32 = 0#32) :
    varintLast g s k = k (accumulate s.acc g) { s with pos := s.pos + 1#32, acc := 0#32 } :=
  withGroup_accumulate _ hi ((not_guardFires_iff_and s.acc).mpr hacc)

/-! ### The three fields -/

theorem acceptType_supported (s : State) : acceptType 0#32 s = { s with imgType := 0#32, phase := .fix } := rfl

theorem acceptType_unsupported {v : Word} (hv : v ≠ 0#32) (s : State) :
    acceptType v s = raise .unsupportedImageType { s with imgType := v } := if_pos hv

/-- Settles O18: the end of input and the guard as in every varint row, then the check of the complete value. -/
theorem typeLastChecksTheType : Obligations.TypeLastChecksTheType := by
  intro s g
  refine ⟨decode_typeLast g, headerRowsRaiseOutOfBounds s _ rfl, guardRaisesIntegerOverflow s g _ (by simp),
    fun hi hacc hv => congrArg Host.Outcome.next ?_, fun hi hacc hv => congrArg Host.Outcome.next ?_⟩
  · rw [varintLast_value _ hi hacc]
    exact acceptType_unsupported hv _
  · rw [varintLast_value _ hi hacc, accumulate, hv, acceptType_supported]

/-- Settles O21: the value goes to WIDTH unchecked. -/
theorem widthLastStoresTheValue : Obligations.WidthLastStoresTheValue := by
  intro s g
  refine ⟨decode_widthLast g, headerRowsRaiseOutOfBounds s _ rfl, guardRaisesIntegerOverflow s g _ (by simp),
    fun hi hacc => congrArg Host.Outcome.next ?_⟩
  rw [varintLast_value _ hi hacc]
  rfl

/-- Settles O22: HEIGHT holds the value before the dimension check, so it keeps it when the check fails. -/
theorem heightLastChecksDimensions : Obligations.HeightLastChecksDimensions := by
  intro s g
  refine ⟨decode_heightLast g, headerRowsRaiseOutOfBounds s _ rfl, guardRaisesIntegerOverflow s g _ (by simp),
    fun hi hacc hd => congrArg Host.Outcome.next ?_, fun hi hacc hd => congrArg Host.Outcome.next ?_⟩
  · rw [varintLast_value _ hi hacc]
    exact dimensionCheck_legal _ hd
  · rw [varintLast_value _ hi hacc]
    exact dimensionCheck_illegal _ hd

/-! ### The fixed header octet -/

/-- Settles O19: the octet is only read past. -/
theorem fixZeroEntersWidth : Obligations.FixZeroEntersWidth := fun s =>
  ⟨decode_encode_fix (.inl rfl), headerRowsRaiseOutOfBounds s _ rfl,
    fun hi => congrArg Host.Outcome.next (withOctet_octet _ _ hi)⟩

theorem stepWord_inj {ph : Phase} {o o' : Byte} (h : stepWord ph o = stepWord ph o') : o = o' := by
  rw [← stepWord_octet ph o, h, stepWord_octet]

/-- FIX_ZERO is the row of one octet only: its word is encoded from that octet (30_encoding.md R80). -/
theorem eq_zero_of_decodeFix {o : Byte} (h : decodeFix o = .fixZero) : o = 0x00#8 := by
  have hword : TableWord.step (stepWord .fix 0x00#8) = .step (stepWord .fix o) := by
    rw [← (encode_decodeFix o).2, h]
    rfl
  exact (stepWord_inj (TableWord.step.inj hword)).symm

/-- Settles O20: the eight rows are what is left of the phase without FIX_ZERO, and they have one effect. -/
theorem fixNonzeroIsRejected : Obligations.FixNonzeroIsRejected := by
  refine ⟨fun o ho => ⟨decodeFix o, decode_stepWord .fix o, ?_⟩, fun s i hrow => ⟨?_, fun hi => ?_⟩⟩
  · exact (decodeFix_cases o).resolve_left (mt eq_zero_of_decodeFix ho)
  · exact headerRowsRaiseOutOfBounds s i (isHeaderRow_of_isFixNonzeroRow hrow)
  · rw [exec_fixNonzero hrow, fixNonzero, withOctet_octet _ _ hi]
    rfl

/-! ### What a header row writes -/

/-- The four registers that any header row may write: PHASE, POS, ACC and ERRCODE (40_bytecursor.md R100 to R104,
60_exceptions.md R184). -/
def State.withProgress (s : State) (ph : Phase) (pos acc : Word) (err : BitVec 3) : State :=
  { s with phase := ph, pos := pos, acc := acc, errcode := err }

/-- The moves of a header row: those four registers, and the registers of the field that the row completes (41_header.md
R123, R130, R133, R134). -/
inductive HeaderMove (s : State) : Instr → State → Prop where
  | progress {i : Instr} (ph : Phase) (pos acc : Word) (err : BitVec 3) : HeaderMove s i (s.withProgress ph pos acc err)
  | imgType (g : BitVec 7) (v : Word) (ph : Phase) (pos acc : Word) (err : BitVec 3) :
      HeaderMove s (.typeLast g) ({ s with imgType := v }.withProgress ph pos acc err)
  | width (g : BitVec 7) (v : Word) (ph : Phase) (pos acc : Word) (err : BitVec 3) :
      HeaderMove s (.widthLast g) ({ s with width := v }.withProgress ph pos acc err)
  | height (g : BitVec 7) (v : Word) (y xb : BitVec 16) (wptr : OutAddr) (ph : Phase) (pos acc : Word)
      (err : BitVec 3) :
      HeaderMove s (.heightLast g) ({ s with height := v, y := y, xb := xb, wptr := wptr }.withProgress ph pos acc err)

theorem HeaderMove.withOctet {s : State} {i : Instr} (eof : ErrKind) {k : State → State}
    (hk : HeaderMove s i (k { s with pos := s.pos + 1#32 })) : HeaderMove s i (withOctet eof s k) := by
  obtain ⟨-, e⟩ | ⟨-, e⟩ := withOctet_cases eof s k <;> rw [e]
  · exact .progress _ _ _ _
  · exact hk

theorem HeaderMove.withGroup {s : State} {i : Instr} (g : BitVec 7) {k : Word → State → State}
    (hk : ∀ v, HeaderMove s i (k v { s with pos := s.pos + 1#32 })) : HeaderMove s i (withGroup g s k) := by
  obtain ⟨-, e⟩ | ⟨-, -, e⟩ | ⟨-, -, e⟩ := withGroup_cases g s k <;> rw [e]
  · exact .progress _ _ _ _
  · exact .progress _ _ _ _
  · exact hk _

theorem headerMove_acceptType (s : State) (g : BitVec 7) (v pos acc : Word) :
    HeaderMove s (.typeLast g) (acceptType v { s with pos := pos, acc := acc }) := by
  by_cases hv : v = 0#32
  · rw [hv, acceptType_supported]
    exact .imgType g _ _ _ _ _
  · rw [acceptType_unsupported hv]
    exact .imgType g _ _ _ _ _

theorem headerMove_acceptHeight (s : State) (g : BitVec 7) (v pos acc : Word) :
    HeaderMove s (.heightLast g) (acceptHeight v { s with pos := pos, acc := acc }) := by
  unfold acceptHeight
  by_cases hd : dimLegal s.width ∧ dimLegal v
  · rw [dimensionCheck_legal _ hd]
    exact .height g _ _ _ _ _ _ _ _
  · rw [dimensionCheck_illegal _ hd]
    exact .height g _ _ _ _ _ _ _ _

/-- Every header row answers by one of these moves. -/
theorem exists_headerMove {i : Instr} (h : isHeaderRow i = true) (s : State) :
    ∃ t, exec i s = .next t ∧ HeaderMove s i t := by
  obtain ⟨g, hrow⟩ | rfl | hrow := headerRow_cases h
  · have cont : HeaderMove s i (varintContinue g s) := .withGroup g fun _ => .progress _ _ _ _
    simp only [varintRows, List.mem_cons, List.not_mem_nil, or_false] at hrow
    obtain rfl | rfl | rfl | rfl | rfl | rfl := hrow
    · exact ⟨_, rfl, cont⟩
    · exact ⟨_, rfl, .withGroup g fun v => headerMove_acceptType s g v _ _⟩
    · exact ⟨_, rfl, cont⟩
    · exact ⟨_, rfl, .withGroup g fun v => .width g v _ _ _ _⟩
    · exact ⟨_, rfl, cont⟩
    · exact ⟨_, rfl, .withGroup g fun v => headerMove_acceptHeight s g v _ _⟩
  · exact ⟨_, rfl, .withOctet _ (.progress _ _ _ _)⟩
  · exact ⟨_, exec_fixNonzero hrow s, .withOctet _ (.progress _ _ _ _)⟩

/-- Settles O23: no move writes outside the four registers but that of a row that completes a field, which writes the
field's own. -/
theorem headerRowsFrame : Obligations.HeaderRowsFrame := by
  intro s t i hrow he
  obtain ⟨t', e, m⟩ := exists_headerMove hrow s
  cases e.symm.trans he
  cases m <;> simp [State.withProgress]

end Sys2Proof.Machine
end

section
/-! PROOFS. ROW_BYTE (42_unpack.md R141 to R146): which pixels it writes, what it leaves unchanged, and where the cursor,
the write position, the column and the row stand after it. -/

namespace Sys2Proof.Machine

/-! ### The pixels of one octet -/

/-- Settles O26: the lanes emit up to the row's end, each at the next pixel address. -/
theorem activeLanesAreAPrefix : Obligations.ActiveLanesAreAPrefix := fun s p => pixelWrites_eq_map p s

/-- Pixels at rising addresses that do not overlap are all found again after the writes (20_memory.md R53). -/
theorem pixelFold_read {ws : List (OutAddr × Bool)} (hs : ws.Pairwise fun v w => v.1.toNat + 4 ≤ w.1.toNat)
    {w : OutAddr × Bool} (hw : w ∈ ws) {c : Nat} (hc : c < 4) (m : Memory) :
    (pixelFold ws m).read (w.1.toNat + c) = some (pixelByte w.2 c) := by
  induction ws generalizing m with
  | nil => exact absurd hw List.not_mem_nil
  | cons v ws ih =>
    obtain ⟨hv, hs⟩ := List.pairwise_cons.mp hs
    have hcons : pixelFold (v :: ws) m = pixelFold ws (pixelWrite m v.1 v.2) := rfl
    rw [hcons]
    obtain rfl | hw := List.mem_cons.mp hw
    · have hlater (x : OutAddr × Bool) (hx : x ∈ ws) : w.1.toNat + 4 ≤ x.1.toNat := hv x hx
      rw [pixelFold_other _ _ _ fun x hx => .inl (by have := hlater x hx; omega)]
      exact (pixelWriteStoresFourBytes m w.1 w.2).1 c hc
    · exact ih hs hw _

/-- In a sound state of the bitmap the pixels of an octet do not overlap. -/
theorem pixelWrites_pairwise {s : State} (h : Sound s) (hp : s.phase = .rows) (p : Byte) :
    (pixelWrites p s).Pairwise fun v w => v.1.toNat + 4 ≤ w.1.toNat := by
  rw [pixelWrites_eq_map, List.pairwise_map]
  refine List.pairwise_lt_range.imp_of_mem fun {i j} hi hj hlt => ?_
  rw [laneAddress_toNat h hp (List.mem_range.mp hi).le, laneAddress_toNat h hp (List.mem_range.mp hj).le]
  omega

/-! ### What ROW_BYTE leaves of the state -/

/-- The loop control after an octet's pixels, the octet having been inside the buffer (42_unpack.md R143, R144). -/
inductive RowMove (s : State) : State → Prop where
  | inRow (hx : s.xb.toNat + 8 < s.width.toNat) : RowMove s { s with xb := (s.xb.setWidth 17 + 8#17).setWidth 16 }
  | rowEnd (hx : s.width.toNat ≤ s.xb.toNat + 8) (hy : (s.y + 1#16).toNat ≠ s.height.toNat) :
      RowMove s { s with xb := 0#16, y := s.y + 1#16 }
  | bitmapEnd (hx : s.width.toNat ≤ s.xb.toNat + 8) (hy : (s.y + 1#16).toNat = s.height.toNat) :
      RowMove s { s with xb := 0#16, y := s.y + 1#16, phase := .done }

theorem rowMove_rowAdvance {s : State} (hi : s.pos.toNat ≤ s.inLen.toNat) : RowMove s (rowAdvance s) := by
  obtain ⟨hx, e⟩ | ⟨hx, hy, e⟩ | ⟨hx, hy, e⟩ := rowAdvance_cases s <;> rw [e]
  · exact .inRow hx
  · exact .rowEnd hx hy
  · rw [endCheck_inside]
    · exact .bitmapEnd hx hy
    · exact hi

/-- The state between the pixels of an octet and the loop control (42_unpack.md R141). -/
def afterPixels (p : Byte) (s : State) : State := writePixels (pixelWrites p s) { s with pos := s.pos + 1#32 }

theorem unpackOctet_rowMove {p : Byte} {s : State} (hi : s.pos.toNat < s.inLen.toNat)
    (ha : admitted s.platform.outCap (pixelWrites p s) = true) : RowMove (afterPixels p s) (unpackOctet p s) := by
  rw [unpackOctet_admitted hi ha]
  exact rowMove_rowAdvance ((pos_succ hi).trans_le hi)

theorem unpackOctet_end {s : State} (he : s.inLen.toNat ≤ s.pos.toNat) (p : Byte) :
    unpackOctet p s = raise .truncatedBitmap s := withOctet_end _ _ he

theorem RowMove.output_eq {s t : State} (m : RowMove s t) : t.output = s.output := by cases m <;> rfl

theorem RowMove.phase_errcode {s t : State} (m : RowMove s t) (hp : s.phase ≠ .error) :
    t.phase ≠ .error ∧ t.errcode = s.errcode := by
  cases m with
  | inRow | rowEnd => exact ⟨hp, rfl⟩
  | bitmapEnd => exact ⟨nofun, rfl⟩

/-- Everything but the registers that the bitmap moves (POS, XB, Y, WPTR, PHASE and ERRCODE) and the memories is the
same. -/
def BitmapFrame (s t : State) : Prop :=
  t.acc = s.acc ∧ t.imgType = s.imgType ∧ t.width = s.width ∧ t.height = s.height ∧ t.inLen = s.inLen ∧
  t.platform = s.platform ∧ t.agenda = s.agenda ∧ t.rdata = s.rdata ∧ t.sync = s.sync ∧ t.unseen = s.unseen ∧
  t.draws = s.draws

theorem BitmapFrame.refl (s : State) : BitmapFrame s s := by simp [BitmapFrame]

theorem BitmapFrame.trans {s t u : State} (hst : BitmapFrame s t) (htu : BitmapFrame t u) : BitmapFrame s u := by
  unfold BitmapFrame at *
  simp only [htu, hst, and_self]

theorem RowMove.frame {s t : State} (m : RowMove s t) : BitmapFrame s t := by
  cases m <;> simp [BitmapFrame]

theorem unpackOctet_frame (p : Byte) (s : State) : BitmapFrame s (unpackOctet p s) := by
  obtain ⟨-, e⟩ | ⟨-, -, e⟩ | ⟨hi, ha, -⟩ := unpackOctet_cases p s
  · exact e ▸ .refl s
  · rw [e]; exact .refl s
  · exact (unpackOctet_rowMove hi ha).frame

theorem unpackOctet_input (p : Byte) (s : State) : (unpackOctet p s).input = s.input := by
  obtain h | ⟨-, h⟩ := unpackOctet_moves p s <;> exact congrArg (·.2.2.1) h

theorem unpackOctet_output {p : Byte} {s : State} (hi : s.pos.toNat < s.inLen.toNat)
    (ha : admitted s.platform.outCap (pixelWrites p s) = true) :
    (unpackOctet p s).output = pixelFold (pixelWrites p s) s.output := (unpackOctet_rowMove hi ha).output_eq

theorem unpackOctet_output_other {p : Byte} {s : State} {b : Nat}
    (hb : ∀ w ∈ pixelWrites p s, b < w.1.toNat ∨ w.1.toNat + 4 ≤ b) :
    (unpackOctet p s).output.read b = s.output.read b := by
  obtain ⟨-, e⟩ | ⟨-, -, e⟩ | ⟨hi, ha, -⟩ := unpackOctet_cases p s
  · rw [e, raise_output]
  · rw [e]
  · rw [unpackOctet_output hi ha, pixelFold_other _ _ _ hb]

/-- Settles O27: the end of the input raises the error alone. -/
theorem rowByteRaisesTruncatedBitmap : Obligations.RowByteRaisesTruncatedBitmap := fun _ p he =>
  congrArg Host.Outcome.next (unpackOctet_end he p)

/-- Settles O31: ROW_BYTE writes through its pixels only, and moves the registers of the bitmap. -/
theorem rowByteFrame : Obligations.RowByteFrame := by
  intro s t p he
  obtain rfl : unpackOctet p s = t := Host.Outcome.next.inj he
  exact ⟨fun b hb => unpackOctet_output_other hb, fun b => by rw [unpackOctet_input], unpackOctet_frame p s⟩

/-- Settles O33: with its octet inside the buffer the loop control raises nothing. -/
theorem endCheckNeverFails : Obligations.EndCheckNeverFails := by
  intro s t p hp hi he
  obtain rfl : unpackOctet p s = t := Host.Outcome.next.inj he
  by_cases ha : admitted s.platform.outCap (pixelWrites p s) = true
  · exact (unpackOctet_rowMove hi ha).phase_errcode hp
  · rw [unpackOctet_stuck hi ha]
    exact ⟨hp, rfl⟩

/-! ### ROW_BYTE with room for its pixels -/

/-- A sound state of the bitmap with an octet left and room for its pixels: one in which ROW_BYTE happens. -/
structure RowByteReady (s : State) : Prop where
  sound : Sound s
  phase : s.phase = .rows
  octet : s.pos.toNat < s.inLen.toNat
  room : s.wptr.toNat + 4 * activeLanes s.width.toNat s.xb.toNat ≤ s.platform.outCap

namespace RowByteReady

variable {s : State} (h : RowByteReady s) (p : Byte)
include h

theorem pixels_admitted : admitted s.platform.outCap (pixelWrites p s) = true :=
  (admitted_pixelWrites_iff h.sound h.phase p).mpr h.room

theorem rowMove : RowMove (afterPixels p s) (unpackOctet p s) := unpackOctet_rowMove h.octet (h.pixels_admitted p)

theorem errcode_eq : (unpackOctet p s).errcode = s.errcode :=
  ((h.rowMove p).phase_errcode (by rw [afterPixels, writePixels_phase, h.phase]; nofun)).2

theorem pos_eq : (unpackOctet p s).pos = s.pos + 1#32 := by
  have m := h.rowMove p
  generalize unpackOctet p s = t at m
  cases m <;> rfl

theorem wptr_toNat :
    (unpackOctet p s).wptr.toNat = s.wptr.toNat + 4 * activeLanes s.width.toNat s.xb.toNat := by
  rw [unpackOctet_admitted h.octet (h.pixels_admitted p), rowAdvance_wptr, writePixels_wptr, pixelWrites_length]
  exact laneAddress_toNat h.sound h.phase le_rfl

/-- The pixel of every column of the octet that is in the row (42_unpack.md R141, R142). -/
theorem output_pixel {j c : Nat} (hj : j < 8) (hx : s.xb.toNat + j < s.width.toNat) (hc : c < 4) :
    (unpackOctet p s).output.read (pixelAddress s.width.toNat s.y.toNat (s.xb.toNat + j) c) =
      some (pixelByte (p.getLsbD (7 - j)) c) := by
  have hlane : j < activeLanes s.width.toNat s.xb.toNat := by
    unfold activeLanes
    omega
  have hmem : (s.wptr + BitVec.ofNat 34 (4 * j), p.getLsbD (7 - j)) ∈ pixelWrites p s := by
    rw [activeLanesAreAPrefix]
    exact List.mem_map_of_mem (List.mem_range.mpr hlane)
  have haddr : pixelAddress s.width.toNat s.y.toNat (s.xb.toNat + j) c =
      (s.wptr + BitVec.ofNat 34 (4 * j)).toNat + c := by
    have hw := (h.sound.rows_at h.phase).2.2.2
    rw [laneAddress_toNat h.sound h.phase hlane.le, pixelAddress]
    omega
  rw [unpackOctet_output h.octet (h.pixels_admitted p), haddr]
  exact pixelFold_read (pixelWrites_pairwise h.sound h.phase p) hmem hc _

theorem output_other {a : Nat}
    (ha : a < s.wptr.toNat ∨ s.wptr.toNat + 4 * activeLanes s.width.toNat s.xb.toNat ≤ a) :
    (unpackOctet p s).output.read a = s.output.read a :=
  unpackOctet_output_other fun w hw => by
    obtain ⟨j, hj, e⟩ := mem_pixelWrites h.sound h.phase hw
    omega

theorem inside_row (hx : s.xb.toNat + 8 < s.width.toNat) :
    (unpackOctet p s).xb.toNat = s.xb.toNat + 8 ∧ (unpackOctet p s).y = s.y ∧ (unpackOctet p s).phase = .rows := by
  obtain ⟨⟨-, hw⟩, -⟩ := h.sound.dims (.inl h.phase)
  have hxb : ((s.xb.setWidth 17 + 8#17).setWidth 16).toNat = s.xb.toNat + 8 := by
    simp only [BitVec.toNat_add, BitVec.toNat_setWidth, BitVec.toNat_ofNat]
    omega
  have m := h.rowMove p
  generalize unpackOctet p s = t at m
  cases m with
  | inRow => exact ⟨hxb, rfl, h.phase⟩
  | rowEnd hle | bitmapEnd hle => exact absurd hx (Nat.not_lt.mpr hle)

theorem row_end (hx : s.width.toNat ≤ s.xb.toNat + 8) :
    (unpackOctet p s).xb = 0#16 ∧ (unpackOctet p s).y.toNat = s.y.toNat + 1 ∧
      (s.y.toNat + 1 < s.height.toNat → (unpackOctet p s).phase = .rows) ∧
      (s.y.toNat + 1 = s.height.toNat → (unpackOctet p s).phase = .done) := by
  obtain ⟨-, -, hh⟩ := h.sound.dims (.inl h.phase)
  have hlt := (h.sound.rows_at h.phase).1
  have hy1 : (s.y + 1#16).toNat = s.y.toNat + 1 := by
    simp only [BitVec.toNat_add, BitVec.toNat_ofNat]
    omega
  have m := h.rowMove p
  generalize unpackOctet p s = t at m
  cases m with
  | inRow hx' => exact absurd hx' (Nat.not_lt.mpr hx)
  | rowEnd _ hy => exact ⟨rfl, hy1, fun _ => h.phase, fun heq => absurd (hy1.trans heq) hy⟩
  | bitmapEnd _ hy => exact ⟨rfl, hy1, fun hlt => absurd (hy1.symm.trans hy) hlt.ne, fun _ => rfl⟩

end RowByteReady

/-- Settles O28: each active lane's pixel is at its row-major address, and nothing else is written. -/
theorem rowByteWritesItsPixels : Obligations.RowByteWritesItsPixels := by
  intro s p hs hp hi hcap
  have h : RowByteReady s := ⟨hs, hp, hi, hcap⟩
  exact ⟨_, rfl, fun j c hj hx hc => h.output_pixel p hj hx hc, fun a ha => h.output_other p ha,
    fun a => by rw [unpackOctet_input]⟩

/-- Settles O29: the cursor and the write position always move, the column or the row by the loop control. -/
theorem rowByteAdvances : Obligations.RowByteAdvances := by
  intro s p hs hp hi hcap
  have h : RowByteReady s := ⟨hs, hp, hi, hcap⟩
  obtain ⟨hacc, htype, hwidth, hheight, hlen, hplatform, hfields⟩ := unpackOctet_frame p s
  exact ⟨_, rfl, h.pos_eq p, h.wptr_toNat p, h.inside_row p, h.row_end p, hacc, htype, hwidth, hheight,
    h.errcode_eq p, hlen, hplatform, hfields⟩

end Sys2Proof.Machine
end

section
/-! PROOFS. The whole bitmap (42_unpack.md R147): the block takes the packed octets in row-major order, and the output
holds the pixels of those taken. -/

namespace Sys2Proof.Machine

/-! ### The order of octets and pixels -/

/-- Every row ends where a later one begins or before. -/
theorem row_end_le {y y' : Nat} (h : y < y') (n : Nat) : y * n + n ≤ y' * n := by
  rw [← Nat.succ_mul]
  exact Nat.mul_le_mul_right n h

theorem row_le_of_index_le {n y q y' q' : Nat} (hq : q' < n) (h : y * n + q ≤ y' * n + q') : y ≤ y' := by
  by_contra hlt
  have := row_end_le (Nat.lt_of_not_le hlt) n
  omega

theorem octetColumn_lt {width x : Nat} (hx : x < width) : x / 8 < rowStride width := by
  unfold rowStride
  omega

theorem octet_lt {width height y x : Nat} (hy : y < height) (hx : x < width) :
    y * rowStride width + x / 8 < height * rowStride width :=
  (Nat.add_lt_add_left (octetColumn_lt hx) _).trans_le (row_end_le hy _)

/-- An octet of the image holds pixels of one row and one group of eight columns. -/
theorem position_of_octet_eq {width y x y' x' : Nat} (hx : x < width) (hx' : x' < width)
    (h : y * rowStride width + x / 8 = y' * rowStride width + x' / 8) : y = y' ∧ x / 8 = x' / 8 := by
  have hy : y = y' :=
    Nat.le_antisymm (row_le_of_index_le (octetColumn_lt hx') h.le) (row_le_of_index_le (octetColumn_lt hx) h.ge)
  subst hy
  exact ⟨rfl, Nat.add_left_cancel h⟩

/-- The pixels of an earlier octet lie before the first column of a later one (20_memory.md R58). -/
theorem pixel_lt_of_octet_lt {width y x y' x' : Nat} (hx : x < width) (hx' : x' < width) (h8 : x' % 8 = 0)
    (h : y * rowStride width + x / 8 < y' * rowStride width + x' / 8) : y * width + x < y' * width + x' := by
  obtain hlt | rfl := Nat.lt_or_eq_of_le (row_le_of_index_le (octetColumn_lt hx') h.le)
  · have := row_end_le hlt width
    omega
  · omega

/-- The number of packed octets before the one that the block takes next (30_encoding.md R78). -/
def State.octetIndex (s : State) : Nat := s.y.toNat * rowStride s.width.toNat + s.xb.toNat / 8

/-- The next octet's pixels lie inside the image. -/
theorem octet_end_le {s : State} (h : Sound s) (hp : s.phase = .rows) :
    s.wptr.toNat + 4 * activeLanes s.width.toNat s.xb.toNat ≤ s.width.toNat * s.height.toNat * 4 := by
  obtain ⟨hy, -, hx, hw⟩ := h.rows_at hp
  have hrows := row_end_le hy s.width.toNat
  rw [Nat.mul_comm s.height.toNat] at hrows
  have hlanes : activeLanes s.width.toNat s.xb.toNat ≤ s.width.toNat - s.xb.toNat := Nat.min_le_right _ _
  omega

theorem octetIndex_lt {s : State} (h : Sound s) (hp : s.phase = .rows) :
    s.octetIndex < s.height.toNat * rowStride s.width.toNat := by
  obtain ⟨hy, -, hx, -⟩ := h.rows_at hp
  exact octet_lt hy hx

theorem octetIndex_of_done {s : State} (h : Sound s) (hp : s.phase = .done) :
    s.octetIndex = s.height.toNat * rowStride s.width.toNat := by
  obtain ⟨hy, hx, -⟩ := h.done_at hp
  simp [State.octetIndex, hy, hx]

/-- ROW_BYTE stays in the bitmap or ends it, with one octet more taken (42_unpack.md R143, R144). -/
theorem RowByteReady.octetIndex_succ {s : State} (h : RowByteReady s) (p : Byte) :
    ((unpackOctet p s).phase = .rows ∨ (unpackOctet p s).phase = .done) ∧
      (unpackOctet p s).octetIndex = s.octetIndex + 1 := by
  obtain ⟨hy, h8, hx, -⟩ := h.sound.rows_at h.phase
  obtain ⟨-, -, hwidth, -⟩ := unpackOctet_frame p s
  rw [State.octetIndex, hwidth, State.octetIndex]
  by_cases hend : s.xb.toNat + 8 < s.width.toNat
  · obtain ⟨hxb, hyeq, hp⟩ := h.inside_row p hend
    rw [hxb, hyeq]
    exact ⟨.inl hp, by omega⟩
  · obtain ⟨hxb, hyeq, hrows, hdone⟩ := h.row_end p (Nat.le_of_not_lt hend)
    have hstride : rowStride s.width.toNat = s.xb.toNat / 8 + 1 := by
      unfold rowStride
      omega
    rw [hxb, hyeq, Nat.succ_mul, hstride]
    exact ⟨(Nat.lt_or_eq_of_le hy).imp hrows hdone, by simp [Nat.add_assoc]⟩

/-! ### The octets taken one by one -/

/-- The entry to the bitmap, with every packed octet in the input and room for the image (42_unpack.md R147). -/
structure AtBitmap (s : State) : Prop where
  sound : Sound s
  runnable : s.runnable
  agenda : s.agenda = []
  phase : s.phase = .rows
  row : s.y = 0#16
  column : s.xb = 0#16
  octets : s.pos.toNat + s.height.toNat * rowStride s.width.toNat ≤ s.inLen.toNat
  room : s.width.toNat * s.height.toNat * 4 ≤ s.platform.outCap

/-- The state `t` after `k` packed octets of the bitmap that `s` enters: the output holds their pixels, and every byte
beyond the image is as at the entry. -/
structure DecodedOctets (s : State) (k : Nat) (t : State) : Prop where
  sound : Sound t
  phase : t.phase = .rows ∨ t.phase = .done
  index : t.octetIndex = k
  pos : t.pos.toNat = s.pos.toNat + k
  frame : BitmapFrame s t
  input : t.input = s.input
  pixels : ∀ y x c, x < s.width.toNat → c < 4 → y * rowStride s.width.toNat + x / 8 < k →
    t.output.read (pixelAddress s.width.toNat y x c) =
      some (pixelByte (packedBit s s.pos.toNat s.width.toNat y x) c)
  beyond : ∀ a, s.width.toNat * s.height.toNat * 4 ≤ a → t.output.read a = s.output.read a

theorem AtBitmap.decodedOctets_zero {s : State} (h : AtBitmap s) : DecodedOctets s 0 s where
  sound := h.sound
  phase := .inl h.phase
  index := by simp [State.octetIndex, h.row, h.column]
  pos := rfl
  frame := .refl s
  input := rfl
  pixels _ _ _ _ _ hlt := absurd hlt (Nat.not_lt_zero _)
  beyond _ _ := rfl

namespace DecodedOctets

variable {s t : State} {k : Nat} (d : DecodedOctets s k t)
include d

theorem phase_rows (hk : k < s.height.toNat * rowStride s.width.toNat) : t.phase = .rows := by
  obtain ⟨-, -, hwidth, hheight, -⟩ := d.frame
  refine d.phase.resolve_right fun hp => hk.ne ?_
  rw [← d.index, octetIndex_of_done d.sound hp, hwidth, hheight]

theorem phase_done (hk : k = s.height.toNat * rowStride s.width.toNat) : t.phase = .done := by
  obtain ⟨-, -, hwidth, hheight, -⟩ := d.frame
  refine d.phase.resolve_left fun hp => (octetIndex_lt d.sound hp).ne ?_
  rw [d.index, hk, hwidth, hheight]

theorem rowByteReady (h : AtBitmap s) (hk : k < s.height.toNat * rowStride s.width.toNat) : RowByteReady t := by
  obtain ⟨-, -, hwidth, hheight, hlen, hplatform, -⟩ := d.frame
  have hp := d.phase_rows hk
  have himage := octet_end_le d.sound hp
  have hoctets := h.octets
  have hroom := h.room
  refine ⟨d.sound, hp, ?_, himage.trans ?_⟩
  · rw [d.pos, hlen]
    omega
  · rwa [hwidth, hheight, hplatform]

/-- With the octet at POS taken, the pixels of one octet more are in the output (42_unpack.md R147 item 3). -/
theorem pixels_succ (r : RowByteReady t) {y x c : Nat} (hx : x < s.width.toNat) (hc : c < 4)
    (hk : y * rowStride s.width.toNat + x / 8 < k + 1) :
    (unpackOctet (t.inRead t.pos.toNat) t).output.read (pixelAddress s.width.toNat y x c) =
      some (pixelByte (packedBit s s.pos.toNat s.width.toNat y x) c) := by
  obtain ⟨-, -, hwidth, -⟩ := d.frame
  obtain ⟨-, h8, hxb, hw⟩ := r.sound.rows_at r.phase
  have hindex := d.index
  rw [State.octetIndex] at hindex
  rw [hwidth] at hindex hxb hw
  obtain hlt | heq := Nat.lt_or_eq_of_le (Nat.le_of_lt_succ hk)
  · have hbefore := pixel_lt_of_octet_lt hx hxb h8 (hlt.trans_eq hindex.symm)
    rw [r.output_other _ (.inl (by rw [pixelAddress]; omega))]
    exact d.pixels y x c hx hc hlt
  · obtain ⟨rfl, hcol⟩ := position_of_octet_eq hx hxb (heq.trans hindex.symm)
    have hcolumn : x = t.xb.toNat + x % 8 := by omega
    have hbit : packedBit s s.pos.toNat s.width.toNat t.y.toNat x = (t.inRead t.pos.toNat).getLsbD (7 - x % 8) := by
      rw [packedBit, Nat.add_assoc, heq, ← d.pos, State.inRead, State.inRead, d.input]
    have hpixel := r.output_pixel (t.inRead t.pos.toNat) (Nat.mod_lt x (by decide)) (by rw [hwidth]; omega) hc
    rw [hbit]
    rwa [hwidth, ← hcolumn] at hpixel

theorem succ (r : RowByteReady t) : DecodedOctets s (k + 1) (unpackOctet (t.inRead t.pos.toNat) t) := by
  obtain ⟨hphase, hindex⟩ := r.octetIndex_succ (t.inRead t.pos.toNat)
  obtain ⟨-, -, hwidth, hheight, -⟩ := d.frame
  exact {
    sound := r.sound.unpackOctet r.phase _
    phase := hphase
    index := by rw [hindex, d.index]
    pos := by rw [r.pos_eq, pos_succ r.octet, d.pos, Nat.add_assoc]
    frame := d.frame.trans (unpackOctet_frame _ t)
    input := (unpackOctet_input _ t).trans d.input
    pixels := fun y x c hx hc hk => d.pixels_succ r hx hc hk
    beyond := fun a ha => by
      have himage := octet_end_le r.sound r.phase
      rw [hwidth, hheight] at himage
      rw [r.output_other _ (.inr (by rw [hwidth]; omega)), d.beyond a ha] }

theorem step_eq (h : AtBitmap s) (r : RowByteReady t) :
    step t = .next (unpackOctet (t.inRead t.pos.toNat) t) := by
  obtain ⟨-, -, -, -, hlen, hplatform, hagenda, -⟩ := d.frame
  have herr : t.errcode = s.errcode := by
    rw [h.sound.errcode_zero (by rw [h.phase]; nofun), r.sound.errcode_zero (by rw [r.phase]; nofun)]
  rw [step_block (runnable_of_eq herr hplatform hlen h.runnable) (hagenda.trans h.agenda),
    blockStep_of_rows r.phase r.octet]

/-- The rest of the octets are taken in as many steps. -/
theorem run_to_end (h : AtBitmap s) {n : Nat} (hn : k + n = s.height.toNat * rowStride s.width.toNat) :
    ∃ u, Sys2Proof.core.run n t = .next u ∧ DecodedOctets s (s.height.toNat * rowStride s.width.toNat) u := by
  induction n generalizing k t with
  | zero => exact ⟨t, rfl, hn ▸ d⟩
  | succ n ih =>
    have r := d.rowByteReady h (by omega)
    obtain ⟨u, hrun, hu⟩ := ih (d.succ r) (by omega)
    exact ⟨u, (run_succ_of_step (d.step_eq h r) n).trans hrun, hu⟩

end DecodedOctets

/-- Settles O34: after the last octet the invariant of DONE gives the registers, and every pixel's octet is taken. -/
theorem bitmapDecodesToTheImage : Obligations.BitmapDecodesToTheImage := by
  intro s hs hr ha hp hy hx hoctets hroom
  have h : AtBitmap s := ⟨hs, hr, ha, hp, hy, hx, hoctets, hroom⟩
  obtain ⟨t, hrun, d⟩ := h.decodedOctets_zero.run_to_end h (Nat.zero_add _)
  have hdone := d.phase_done rfl
  obtain ⟨-, -, hwidth, hheight, -⟩ := d.frame
  obtain ⟨hyt, hxt, hwt⟩ := d.sound.done_at hdone
  exact ⟨t, hrun, hdone, d.sound.errcode_zero (by rw [hdone]; nofun), d.sound.acc_zero (by rw [hdone]; rfl), hxt,
    by rw [hyt, hheight], hwidth, hheight, d.pos, by rw [hwt, hwidth, hheight],
    fun y x c hy hx hc => d.pixels y x c hx hc (octet_lt hy hx), d.beyond, d.input⟩

end Sys2Proof.Machine
end

section
/-! PROOFS. The host's commands (43_host.md R161 to R167): START and the other writes to the register window, and what a
read of each offset returns. -/

namespace Sys2Proof.Machine

/-! ### START -/

/-- Settles O38: during a decode no entry of the agenda but the block's turn and reset moves a register. -/
theorem startWhileBusyIsIgnored : Obligations.StartWhileBusyIsIgnored := by
  refine fun s hb => ⟨exec_start_busy hb, fun e rest t ha hblock hreset hs => ?_⟩
  obtain ⟨hnil, -⟩ | ⟨e', rest', ha', m⟩ := step_moves hs
  · cases hnil.symm.trans ha
  · cases ha'.symm.trans ha
    exact (m.registers_of_busy hb hblock hreset).1

/-- Settles O37: at rest START clears the registers of the last decode and enters TYPE. -/
theorem startBeginsADecode : Obligations.StartBeginsADecode := fun s ign hp =>
  ⟨startDecode s, exec_start_resting (resting_not_busy hp) ign, startDecode_registers s, rfl, rfl, rfl, rfl, rfl, rfl,
    rfl, rfl, rfl⟩

/-! ### The writer of IN_LEN -/

theorem exec_start_inLen {s t : State} {ign : BitVec 31} (h : exec (.start ign) s = .next t) : t.inLen = s.inLen := by
  cases hb : s.busy
  · cases (exec_start_resting hb ign).symm.trans h
    rfl
  · cases (exec_start_busy hb ign).symm.trans h
    rfl

/-- No row but WRITE_IN_LEN changes IN_LEN (10_state.md R31). -/
theorem exec_inLen {s t : State} {i : Instr} (h : exec i s = .next t) (hne : ∀ data, i ≠ .writeInLen data) :
    t.inLen = s.inLen := by
  by_cases hrow : isHeaderRow i = true
  · obtain ⟨-, -, hlen, -⟩ := headerRowsFrame s t i hrow h
    exact hlen
  cases i with
  | rowByte p =>
    cases h
    obtain ⟨-, -, -, -, hlen, -⟩ := unpackOctet_frame p s
    exact hlen
  | readReg off data =>
    cases exec_readReg_next h
    rfl
  | start ign => exact exec_start_inLen h
  | writeInLen data => exact absurd rfl (hne data)
  | ctrlWriteZero | writeIgnoredStatus | writeIgnoredErrcode | writeIgnoredRo | writeIgnoredRsvd =>
    cases h
    rfl
  | _ => exact absurd rfl hrow

/-- Settles O41: BUSY decides of WRITE_IN_LEN, and the other rows keep IN_LEN. -/
theorem writeInLenUnlessBusy : Obligations.WriteInLenUnlessBusy :=
  ⟨fun _ data => ⟨fun hb => exec_writeInLen_resting hb data, fun hb => exec_writeInLen_busy hb data⟩,
    fun _ _ _ h hne => exec_inLen h hne⟩

/-! ### Accesses without an effect -/

/-- Settles O9: outside those three conditions the access has no HOST word. -/
theorem otherRegisterAccessIsRefused : Obligations.OtherRegisterAccessIsRefused := by
  intro s wr offset bytes data rest hr ha hbad
  refine (step_event hr ha).trans ?_
  obtain ⟨-, e⟩ | ⟨hb, hal, ho, -⟩ := registerAccess_cases wr offset bytes data { s with agenda := rest }
  · exact e
  · exact absurd ⟨hb, hal, ho⟩ hbad

/-- Settles O39: CTRL_WRITE_ZERO keeps the state, and START does not read its operand. -/
theorem ctrlWriteZeroHasNoEffect : Obligations.CtrlWriteZeroHasNoEffect := fun _ _ _ => ⟨rfl, rfl⟩

/-- Settles O40: each of the four rows keeps the state. -/
theorem ignoredWritesChangeNothing : Obligations.IgnoredWritesChangeNothing := fun _ _ _ => ⟨rfl, rfl, rfl, rfl⟩

/-! ### Reading the window -/

/-- The fields of STATUS do not overlap, so the word is their sum (10_state.md R32). -/
theorem statusWord_toNat (s : State) :
    (statusWord s).toNat = s.phase.bits.toNat * 16 + (if s.phase = .error then 4 else 0) +
      (if s.phase = .done then 2 else 0) +
      (if 1 ≤ s.phase.bits.toNat ∧ s.phase.bits.toNat ≤ 5 then 1 else 0) := by
  unfold statusWord State.busy State.done State.err
  cases s.phase <;> rfl

theorem windowWord_errcode_toNat (s : State) : (windowWord s 0x08#6).toNat = s.errcode.toNat := by
  have hword : windowWord s 0x08#6 = s.errcode.setWidth 32 := rfl
  rw [hword, BitVec.toNat_setWidth_of_le (by decide)]

theorem windowWord_reserved (s : State) {off : BitVec 6} (h : 0x20 ≤ off.toNat) : windowWord s off = 0#32 := by
  have hne (c : BitVec 6) (hc : c.toNat < 0x20) : off ≠ c := by
    rintro rfl
    omega
  simp only [windowWord, statusOffset, hne 0x04#6 (by decide), hne 0x08#6 (by decide), hne 0x0C#6 (by decide),
    hne 0x10#6 (by decide), hne 0x14#6 (by decide), hne 0x18#6 (by decide), hne 0x1C#6 (by decide), if_false]

/-- Settles O35: the value is the window's word at the offset, and the read moves nothing else that is named. -/
theorem readRegReturnsTheRegister : Obligations.ReadRegReturnsTheRegister := by
  intro s off data ha
  refine ⟨hostReadWord off s, exec_readReg_aligned ha data s, ?ctrl, ?status, ?errcode, ?inLen, ?pos, ?imgType, ?width,
    ?height, windowWord_reserved s, rfl, rfl, rfl, rfl, rfl, rfl⟩
  case status =>
    rintro rfl
    exact statusWord_toNat s
  case errcode =>
    rintro rfl
    exact windowWord_errcode_toNat s
  case ctrl | inLen | pos | imgType | width | height =>
    rintro rfl
    rfl

end Sys2Proof.Machine
end

section
/-! PROOFS. Every decode ends (60_exceptions.md R195): with room for every image each of the block's turns takes an octet or
ends the decode, so the octets that are left bound its steps. -/

namespace Sys2Proof.Machine

/-! ### The block's turn takes an octet -/

/-- The move takes the octet at POS, and does not enter IDLE: the decode runs on or has ended. -/
def TakesOctet (s t : State) : Prop :=
  t.phase ≠ .idle ∧ t.surroundings = { s with pos := s.pos + 1#32 }.surroundings

theorem takesOctet_withOctet {s : State} (hi : s.pos.toNat < s.inLen.toNat) (eof : ErrKind) {k : State → State}
    (hk : TakesOctet s (k { s with pos := s.pos + 1#32 })) : TakesOctet s (withOctet eof s k) := by
  rwa [withOctet_octet eof k hi]

/-- The overflow guard is behind the octet read, so its error takes the octet too (40_bytecursor.md R101, R102). -/
theorem takesOctet_withGroup {s : State} (hi : s.pos.toNat < s.inLen.toNat) (g : BitVec 7) {k : Word → State → State}
    (hk : ∀ v, TakesOctet s (k v { s with pos := s.pos + 1#32 })) : TakesOctet s (withGroup g s k) := by
  cases hg : guardFires s.acc
  · rw [withGroup_accumulate k hi hg]
    exact hk _
  · rw [withGroup_overflow k hi hg]
    exact ⟨nofun, rfl⟩

theorem acceptType_phase_ne_idle (v : Word) (s : State) : (acceptType v s).phase ≠ .idle := by
  unfold acceptType
  split <;> nofun

theorem acceptHeight_phase_ne_idle (v : Word) (s : State) : (acceptHeight v s).phase ≠ .idle := by
  unfold acceptHeight dimensionCheck
  split <;> nofun

theorem RowByteReady.takesOctet {s : State} (r : RowByteReady s) (p : Byte) : TakesOctet s (unpackOctet p s) := by
  constructor
  · obtain ⟨h | h, -⟩ := r.octetIndex_succ p <;> rw [h] <;> nofun
  · rw [unpackOctet_admitted r.octet (r.pixels_admitted p)]
    exact rowAdvance_surroundings _

/-- An image of legal dimensions has at most 65535 × 65535 pixels of four bytes (41_header.md R134). -/
theorem image_bytes_le {w h : Word} (hd : dimLegal w ∧ dimLegal h) : w.toNat * h.toNat * 4 ≤ 17179344900 := by
  obtain ⟨⟨-, hw⟩, -, hh⟩ := hd
  have := Nat.mul_le_mul hw hh
  omega

theorem BlockMove.takesOctet {s t : State} (m : BlockMove s t) (h : Sound s) (hb : s.busy = true)
    (hi : s.pos.toNat < s.inLen.toNat) (hroom : 17179344900 ≤ s.platform.outCap) : TakesOctet s t := by
  cases m with
  | rest hb' => exact absurd (hb'.symm.trans hb) Bool.false_ne_true
  | endOfInput _ he => exact absurd hi (Nat.not_lt.mpr he)
  | varintCont g _ hp =>
    have hidle : s.phase ≠ .idle := by rintro e; simp [e] at hp
    exact takesOctet_withGroup hi g fun _ => ⟨hidle, rfl⟩
  | typeLast g =>
    exact takesOctet_withGroup hi g fun _ => ⟨acceptType_phase_ne_idle _ _, acceptType_surroundings _ _⟩
  | fixZero => exact takesOctet_withOctet hi _ ⟨nofun, rfl⟩
  | fixNonzero => exact takesOctet_withOctet hi _ ⟨nofun, rfl⟩
  | widthLast g => exact takesOctet_withGroup hi g fun _ => ⟨nofun, rfl⟩
  | heightLast g =>
    exact takesOctet_withGroup hi g fun _ => ⟨acceptHeight_phase_ne_idle _ _, acceptHeight_surroundings _ _⟩
  | rowByte p _ hp =>
    have r : RowByteReady s :=
      ⟨h, hp, hi, (octet_end_le h hp).trans ((image_bytes_le (h.dims (.inl hp))).trans hroom)⟩
    exact r.takesOctet p

/-! ### The decode left alone -/

/-- A block that the host leaves alone, on a platform that holds every image. -/
structure LeftAlone (s : State) : Prop where
  sound : Sound s
  disjoint : s.spacesDisjoint = true
  agenda : s.agenda = []
  room : 17179344900 ≤ s.platform.outCap

namespace LeftAlone

variable {s : State} (h : LeftAlone s)
include h

theorem step_eq : step s = blockStep s := step_block ⟨h.sound.err_legal, h.disjoint⟩ h.agenda

/-- At the end of the input the step raises the phase's error (40_bytecursor.md R100, 42_unpack.md R145). -/
theorem step_end (hb : s.busy = true) (he : s.inLen.toNat ≤ s.pos.toNat) :
    ∃ t, step s = .next t ∧ t.phase = .error := ⟨_, h.step_eq.trans (blockStep_end hb he), rfl⟩

/-- With an octet left the step takes it, and the decode runs on or has ended. -/
theorem step_octet (hb : s.busy = true) (hi : s.pos.toNat < s.inLen.toNat) :
    ∃ t, step s = .next t ∧ LeftAlone t ∧ t.inLen = s.inLen ∧ t.pos.toNat = s.pos.toNat + 1 ∧
      (t.busy = true ∨ t.phase = .done ∨ t.phase = .error) := by
  obtain ⟨t, e, m⟩ := exists_blockMove s
  obtain ⟨hidle, hsur⟩ := m.takesOctet h.sound hb hi h.room
  have hpos : t.pos = s.pos + 1#32 := congrArg (·.1) hsur
  have hlen : t.inLen = s.inLen := congrArg (·.2.1) hsur
  have hplatform : t.platform = s.platform := congrArg (·.2.2.2.1) hsur
  have hagenda : t.agenda = s.agenda := congrArg (·.2.2.2.2.1) hsur
  refine ⟨t, h.step_eq.trans e, ⟨m.sound h.sound, ?_, hagenda.trans h.agenda, hplatform ▸ h.room⟩, hlen,
    by rw [hpos, pos_succ hi], ?_⟩
  · rw [State.spacesDisjoint, hplatform, hlen]
    exact h.disjoint
  · cases hb' : t.busy
    · exact .inr ((resting_of_not_busy hb').resolve_left hidle)
    · exact .inl rfl

/-- One step for each octet that is left, and one for the end of the input. -/
theorem run_ends (hb : s.busy = true) {n : Nat} (hn : s.inLen.toNat - s.pos.toNat = n) :
    ∃ k t, k ≤ n + 1 ∧ Sys2Proof.core.run k s = .next t ∧ (t.phase = .done ∨ t.phase = .error) := by
  induction n generalizing s with
  | zero =>
    obtain ⟨t, hs, hp⟩ := h.step_end hb (Nat.sub_eq_zero_iff_le.mp hn)
    exact ⟨1, t, le_rfl, run_succ_of_step hs 0, .inr hp⟩
  | succ n ih =>
    obtain ⟨t, hs, ht, hlen, hpos, hbusy | hp⟩ := h.step_octet hb (by omega)
    · obtain ⟨k, u, hk, hrun, hu⟩ := ih ht hbusy (by rw [hlen, hpos]; omega)
      exact ⟨k + 1, u, Nat.succ_le_succ hk, (run_succ_of_step hs k).trans hrun, hu⟩
    · exact ⟨1, t, Nat.le_add_left 1 _, run_succ_of_step hs 0, hp⟩

end LeftAlone

/-- Settles O60, by induction on the number of octets that are left. -/
theorem everyDecodeEnds : Obligations.EveryDecodeEnds := fun _ hs hr ha hb hroom =>
  LeftAlone.run_ends ⟨hs, hr.2, ha, hroom⟩ hb rfl

end Sys2Proof.Machine
end

section
/-! PROOFS. Reset and the host's writes to the output space (70_reset_and_hazards.md R200, R206). -/

namespace Sys2Proof.Machine

/-- Outside BUSY a host write of a backed byte stores some byte, the host's own where the block's writes are ordered before
it (20_memory.md R63). -/
theorem exists_hostWriteOutput_resting {s : State} {a : OutAddr} (h : a.toNat < s.platform.outCap)
    (hb : s.busy = false) (b : Byte) :
    ∃ v n, hostWriteOutput a b s = .next { s with output := s.output.write a.toNat v, draws := n } ∧
      (s.unorderedBelow ≤ a.toNat → v = b) := by
  have hwrite := hostWriteOutput_resting h hb b
  by_cases hle : s.unorderedBelow ≤ a.toNat
  · have ho : s.outputOrdered a.toNat = true := decide_eq_true hle
    rw [if_pos ho] at hwrite
    exact ⟨b, s.draws, hwrite, fun _ => rfl⟩
  · have ho : ¬s.outputOrdered a.toNat = true := fun ho => hle (of_decide_eq_true ho)
    rw [if_neg ho] at hwrite
    exact ⟨drawnByte s, s.draws + 1, hwrite, fun hle' => absurd hle' hle⟩

/-- Settles O44: BUSY refuses the write, and at rest it is one write to the output space. -/
theorem hostOutputWriteOrRefusal : Obligations.HostOutputWriteOrRefusal := by
  intro s a b rest hr ha hcap
  have hstep : step s = hostWriteOutput a b { s with agenda := rest } := step_event hr ha
  refine ⟨fun hb => hstep.trans (hostWriteOutput_busy (s := { s with agenda := rest }) hcap hb b), fun hb => ?_⟩
  obtain ⟨v, n, hwrite, hv⟩ := exists_hostWriteOutput_resting (s := { s with agenda := rest }) hcap hb b
  exact ⟨_, v, hstep.trans hwrite, read_write_same s.output a.toNat v, hv, fun k hk => read_write_other s.output v hk,
    rfl, rfl⟩

theorem resetBlock_registers (s : State) : (resetBlock s).registers = Registers.atReset := rfl

/-- Settles O50: a listed reset moves whatever the phase. -/
theorem resetSetsEveryRegister : Obligations.ResetSetsEveryRegister := fun s rest hr ha =>
  ⟨resetBlock { s with agenda := rest }, step_event hr ha, resetBlock_registers _, fun _ => rfl, fun _ => rfl, rfl, rfl⟩

end Sys2Proof.Machine
end
